-- ==== Sys2Proof/Word.lean ====
section
/-! DEFINITION. The machine's words and indexes (00_scope.md R8, R12; 20_memory.md R36). -/
namespace Sys2Proof

/-- A 32-bit bus or timestamp: `CMD`, `THR`, `NOW`, `FS_TIME`, `BEEP_TIME` (R11, R50). -/
abbrev Word := BitVec 32

/-- One timeline slot, `SLOT_BITS = 8` (R8). -/
abbrev Byte := BitVec 8

/-- The 11-bit throttle or command value, `VALUE_BITS = 11` (R8). -/
abbrev Value := BitVec 11

/-- A channel and its output line, `NUM_CH = 4` (R3, R8). -/
abbrev Channel := Fin 4

/-- A timeline slot index, `TL_LEN = 64` (R8, R36): no other index exists. -/
abbrev Slot := Fin 64

/-- The place of a protocol bit in a frame, `FRAME_BITS = 16`, counted from the most significant (R37). -/
abbrev BitIx := Fin 16

end Sys2Proof
end

