-- ==== Sys2Proof/Syntax.lean ====
section
/-! DEFINITION. The six commands (30_encoding.md R57), one constructor per row of the opcode table, and the field
view of a command word (R52). -/
namespace Sys2Proof

/-- The Direction State (10_state.md R24): `0` is FORWARD, `1` is REVERSE. -/
inductive Direction
  | forward | reverse
  deriving DecidableEq, Repr, Inhabited

/-- A command as its word names it (R53). The operand types admit exactly the operands a word can carry, so every
term is a well-formed command; `THR` and `NOW` come on the buses (R50) and are read from the state. -/
inductive Instr
  /-- `ENCODE ch, value, tlm` (40_frame_encoder.md R70). -/
  | encode (ch : Channel) (value : Value) (tlm : Bool)
  /-- `TRANSMIT` (41_transmitter.md R75). -/
  | transmit
  /-- `MAP ch, thr, now, gnd, fs` (42_throttle_failsafe.md R96). -/
  | map (ch : Channel) (gnd fs : Bool)
  /-- `THROTTLE ch, thr, now, gnd, fs` (R97). -/
  | throttle (ch : Channel) (gnd fs : Bool)
  /-- `BEEP_TICK now, fs` (43_beep.md R104). -/
  | beepTick (fs : Bool)
  /-- `SET_DIR FORWARD` or `SET_DIR REVERSE` (R87). -/
  | setDir (dir : Direction)
  deriving DecidableEq, Repr

/-- The fields of the one command-word format `C` (R52), legal or not. -/
structure Fields where
  /-- Bits 3:0. -/
  op : BitVec 4
  /-- Bits 5:4. -/
  ch : BitVec 2
  /-- Bits 16:6. -/
  val : BitVec 11
  /-- Bit 17. -/
  tlm : BitVec 1
  /-- Bit 18. -/
  dir : BitVec 1
  /-- Bit 19. -/
  gnd : BitVec 1
  /-- Bit 20. -/
  fs : BitVec 1
  /-- Bits 31:21. -/
  rsv : BitVec 11
  deriving DecidableEq, Repr

end Sys2Proof
end

