-- ==== Sys2Proof/Config.lean ====
section
/-! DEFINITION. The build-time configuration `Cfg` (00_scope.md R9, R10; 10_state.md R30), and the opaque
constants that stand for what the spec leaves OPEN. -/
namespace Sys2Proof

/-- The two bit-rate timing settings of the transmitter (R9, R18, R85). -/
inductive Profile
  | fast | slow
  deriving DecidableEq, Repr, Inhabited

/-- Which `MAP_FN` the build uses (R9): the reference formula of R91, which is the spec's default, or another
function supplied by the build, of which only R90 is known (`Config.suppliedMapFn`). -/
inductive MapFn
  | reference | supplied
  deriving DecidableEq, Repr

/-- The timing parameters of R10, in one unspecified unit of time (log 5). `CFG_TIMING` (R131) checks them. -/
structure Timing where
  /-- `T_BIT(FAST)`. -/
  bitFast : Nat
  /-- `T_BIT(SLOW)`. -/
  bitSlow : Nat
  /-- `T_SLOT(FAST)`. -/
  slotFast : Nat
  /-- `T_SLOT(SLOW)`. -/
  slotSlow : Nat
  /-- `NOP_SET`. -/
  nopSet : Nat
  /-- `NOP_RESET`. -/
  nopReset : Nat
  /-- `NOP_SLOT(FAST)`. -/
  nopSlotFast : Nat
  /-- `NOP_SLOT(SLOW)`. -/
  nopSlotSlow : Nat
  /-- `EDGE_SKEW_MAX`. -/
  edgeSkewMax : Nat
  deriving DecidableEq, Repr

/-- Where a build's timing parameters come from. -/
inductive TimingChoice
  /-- The build whose numbers are OPEN (R10): `openTiming` (Machine/Timing.lean), of which only `CFG_TIMING` is known. -/
  | unstated
  /-- A build that states its numbers; `CFG_TIMING` checks them. -/
  | given (t : Timing)
  deriving DecidableEq, Repr

/-- The free numbers behind the timing parameters of a build that states none. -/
structure TimingSeed where
  /-- `T_SLOT(FAST) - 1`. -/
  slot : Nat
  /-- How far `T_SLOT(SLOW)` is from `2 * T_SLOT(FAST)`, before the tolerance bounds it. -/
  deviation : Nat
  /-- Is `T_SLOT(SLOW)` more than `2 * T_SLOT(FAST)`? -/
  longer : Bool
  /-- `NOP_SET`. -/
  nopSet : Nat
  /-- `NOP_RESET - NOP_SET - 1`. -/
  nopGap : Nat
  /-- `NOP_SLOT(FAST)`. -/
  nopSlotFast : Nat
  /-- `NOP_SLOT(SLOW)`. -/
  nopSlotSlow : Nat
  /-- `EDGE_SKEW_MAX`. -/
  edgeSkewMax : Nat
  deriving DecidableEq, Repr, Inhabited

/-- The configuration record of R9: constants of a run, read-only to every command (R30). The numbers are
unbounded here; R131's checks (Machine/CfgCheck.lean) bound them. -/
structure Cfg where
  /-- `BIDIR`: `true` is `on`. -/
  bidir : Bool
  /-- The profiles the build selects; `CFG_PROFILE` wants exactly one (R85). -/
  profiles : List Profile
  /-- `IDLE_OFFSET`, an integer; R132 bounds it. -/
  idleOffset : Int
  /-- `BEEP_TIMEOUT_US`. -/
  beepTimeoutUs : Nat
  /-- `BEEP_CODE1`. -/
  beepCode1 : Nat
  /-- `BEEP_CODE2`. -/
  beepCode2 : Nat
  /-- `BEEP_CODE3`. -/
  beepCode3 : Nat
  /-- `BEEP_CODE4`. -/
  beepCode4 : Nat
  /-- `FS_TIME_RESET`. -/
  fsTimeReset : Nat
  /-- `MAP_FN`. -/
  mapFn : MapFn
  /-- The timing parameters of R10. -/
  timing : TimingChoice
  deriving DecidableEq, Repr

/-- The named checks of R131. -/
inductive CfgCheck
  | profile | idle | timeout | codes | mapFn | fsReset | timing
  deriving DecidableEq, Repr

/-- OPEN (R9, D33): whether the build is bidirectional. DESIGN CHOICE, safe: no body, so no claim can rest on it (log 2). -/
opaque Config.bidir : Bool

/-- OPEN (R9, D33): the selected profile. DESIGN CHOICE, safe: no body (log 2). -/
opaque Config.profile : Profile

/-- OPEN (R10, D21): the numbers behind the timing parameters. DESIGN CHOICE, safe: no body (log 2). -/
opaque Config.timingSeed : TimingSeed

/-- OPEN (R131): what "roughly" allows in `T_BIT(SLOW)` for a `T_BIT(FAST)`, before `slowTolerance`
(Machine/Timing.lean) bounds it.
DESIGN CHOICE, safe: no body (log 3). -/
opaque Config.slowToleranceSeed : Nat → Nat

/-- OPEN (R9, R90, U5): a `MAP_FN` supplied by the build. By R90 (d) it depends on `BIDIR`, `DIR`, `IDLE_OFFSET` and
the clamped throttle only; by R24 `mapFn` hands it `DIR` only when `BIDIR = on`. DESIGN CHOICE, safe: no body (log 4). -/
opaque Config.suppliedMapFn : Bool → Direction → Int → Word → Nat

/-- OPEN (R82, D21): the earliest write offset of a slot value. DESIGN CHOICE, safe: no body (log 5). -/
opaque Config.offBase : Byte → Nat

/-- OPEN (R82, D21): a channel's lag behind the earliest write of its slot. DESIGN CHOICE, safe: no body (log 5). -/
opaque Config.offLag : Channel → Byte → Nat

/-- The configuration the machine is reset with: the spec's defaults (R9), and the opaque constants where it states none. -/
def Config.cfg : Cfg where
  bidir := Config.bidir
  profiles := [Config.profile]
  idleOffset := 40
  beepTimeoutUs := 5000000
  beepCode1 := 1
  beepCode2 := 2
  beepCode3 := 3
  beepCode4 := 4
  fsTimeReset := 0
  mapFn := .reference
  timing := .unstated

end Sys2Proof
end

