-- ==== Sys2Proof/WellFormed.lean ====
section
/-! DEFINITION. When the fields of a command word are legal (30_encoding.md R57, R58). A term of `Instr` is always well
formed: its operand types are the fields' ranges (R53). What can be ill formed is a word's fields, and a configuration
(Machine/CfgCheck.lean). -/
namespace Sys2Proof

/-- Why a command word is illegal (R58). Every one of them records `ILLEGAL_COMMAND`; the name is the decoder's. -/
inductive Illegality
  /-- `RSV ≠ 0`. -/
  | reservedBits
  /-- `OP` is `0x0` or `0x7`..`0xF`. -/
  | reservedOpcode
  /-- A field the opcode does not use is not 0. -/
  | unusedField
  deriving DecidableEq, Repr

/-- The opcodes R57 defines. -/
def Fields.opDefined (f : Fields) : Bool :=
  1 ≤ f.op.toNat && f.op.toNat ≤ 6

/-- The fields that R57's column "other fields" wants to be 0 for each opcode (`RSV` apart). -/
def Fields.unusedZero (f : Fields) : Bool :=
  match f.op.toNat with
  | 1 => f.dir == 0 && f.gnd == 0 && f.fs == 0
  | 2 => f.ch == 0 && f.val == 0 && f.tlm == 0 && f.dir == 0 && f.gnd == 0 && f.fs == 0
  | 3 => f.val == 0 && f.tlm == 0 && f.dir == 0
  | 4 => f.val == 0 && f.tlm == 0 && f.dir == 0
  | 5 => f.ch == 0 && f.val == 0 && f.tlm == 0 && f.dir == 0 && f.gnd == 0
  | 6 => f.ch == 0 && f.val == 0 && f.tlm == 0 && f.gnd == 0 && f.fs == 0
  | _ => true

/-- The first of R58's three conditions that the fields meet, `none` when the word is legal. -/
def Fields.illegality (f : Fields) : Option Illegality :=
  if f.rsv ≠ 0 then some .reservedBits
  else if !f.opDefined then some .reservedOpcode
  else if !f.unusedZero then some .unusedField
  else none

end Sys2Proof
end

