-- ==== Sys2Proof/Decode.lean ====
section
/-! DEFINITION. Command words to commands and back (30_encoding.md R52, R53, R57, R58), and the opcode table's
match and mask rows. -/
namespace Sys2Proof

/-- The field view of a word (R52). -/
def Fields.ofWord (w : Word) : Fields where
  op := w.extractLsb' 0 4
  ch := w.extractLsb' 4 2
  val := w.extractLsb' 6 11
  tlm := w.extractLsb' 17 1
  dir := w.extractLsb' 18 1
  gnd := w.extractLsb' 19 1
  fs := w.extractLsb' 20 1
  rsv := w.extractLsb' 21 11

/-- The word with these fields: each at its lowest bit (R52). -/
def Fields.toWord (f : Fields) : Word :=
  BitVec.ofNat 32 (f.op.toNat + 2 ^ 4 * f.ch.toNat + 2 ^ 6 * f.val.toNat + 2 ^ 17 * f.tlm.toNat + 2 ^ 18 * f.dir.toNat
    + 2 ^ 19 * f.gnd.toNat + 2 ^ 20 * f.fs.toNat + 2 ^ 21 * f.rsv.toNat)

/-- A one-bit flag field as a Bool. -/
def flagOf (b : BitVec 1) : Bool := b == 1

/-- A Bool as a one-bit flag field. -/
def flagBit (b : Bool) : BitVec 1 := if b then 1 else 0

/-- `DIR`'s field: 0 FORWARD, 1 REVERSE (R24, R52). -/
def directionOf (b : BitVec 1) : Direction := if b = 1 then .reverse else .forward

/-- The field of a direction (R24, R52). -/
def directionBit : Direction → BitVec 1
  | .forward => 0
  | .reverse => 1

/-- The command that the used fields of a defined opcode name (R53, R57); `none` for a reserved opcode. -/
def Fields.toInstr (f : Fields) : Option Instr :=
  match f.op.toNat with
  | 1 => some (.encode f.ch.toFin f.val (flagOf f.tlm))
  | 2 => some .transmit
  | 3 => some (.map f.ch.toFin (flagOf f.gnd) (flagOf f.fs))
  | 4 => some (.throttle f.ch.toFin (flagOf f.gnd) (flagOf f.fs))
  | 5 => some (.beepTick (flagOf f.fs))
  | 6 => some (.setDir (directionOf f.dir))
  | _ => none

/-- Decode a command word: a command, or the reason R58 gives for its being illegal. -/
def decode (w : Word) : Except Illegality Instr :=
  match (Fields.ofWord w).illegality with
  | some r => .error r
  | none =>
    match (Fields.ofWord w).toInstr with
    | some i => .ok i
    | none => .error .reservedOpcode

/-- The fields of a command, unused ones 0 (R57). -/
def Instr.fields : Instr → Fields
  | .encode ch value tlm => ⟨1, BitVec.ofFin ch, value, flagBit tlm, 0, 0, 0, 0⟩
  | .transmit => ⟨2, 0, 0, 0, 0, 0, 0, 0⟩
  | .map ch gnd fs => ⟨3, BitVec.ofFin ch, 0, 0, 0, flagBit gnd, flagBit fs, 0⟩
  | .throttle ch gnd fs => ⟨4, BitVec.ofFin ch, 0, 0, 0, flagBit gnd, flagBit fs, 0⟩
  | .beepTick fs => ⟨5, 0, 0, 0, 0, 0, flagBit fs, 0⟩
  | .setDir dir => ⟨6, 0, 0, 0, directionBit dir, 0, 0, 0⟩

/-- The one word of a command (R57). -/
def encode (i : Instr) : Word := i.fields.toWord

/-- A row of the opcode table: a word is the command iff `w & mask = match` (R57). -/
structure OpcodeRow where
  /-- The row's mnemonic. -/
  mnemonic : String
  /-- The bits under the mask. -/
  pattern : Word
  /-- The bits the row fixes. -/
  mask : Word
  deriving DecidableEq, Repr

/-- The match and mask table of R57. -/
def opcodeTable : List OpcodeRow := [
  ⟨"ENCODE", 0x00000001, 0xFFFC000F⟩,
  ⟨"TRANSMIT", 0x00000002, 0xFFFFFFFF⟩,
  ⟨"MAP", 0x00000003, 0xFFE7FFCF⟩,
  ⟨"THROTTLE", 0x00000004, 0xFFE7FFCF⟩,
  ⟨"BEEP_TICK", 0x00000005, 0xFFEFFFFF⟩,
  ⟨"SET_DIR", 0x00000006, 0xFFFBFFFF⟩]

/-- `w` matches the row. -/
def OpcodeRow.accepts (r : OpcodeRow) (w : Word) : Bool := w &&& r.mask == r.pattern

/-- The mnemonic of a command's row (R57). -/
def Instr.mnemonic : Instr → String
  | .encode _ _ _ => "ENCODE"
  | .transmit => "TRANSMIT"
  | .map _ _ _ => "MAP"
  | .throttle _ _ _ => "THROTTLE"
  | .beepTick _ => "BEEP_TICK"
  | .setDir _ => "SET_DIR"

/-- What the decoder reads from an instruction of `nbits` bits `w`, numbered as spec/opcode_table.json numbers them;
the bits above `nbits` are 0. -/
def decodeTableWord (nbits w : Nat) : Option Instr :=
  match decode (BitVec.ofNat 32 (w % 2 ^ nbits)) with
  | .ok i => some i
  | .error _ => none

end Sys2Proof
end

