-- ==== Sys2Proof/Machine/Operands.lean ====
section
/-! DEFINITION. The operand forms: the binary32 throttle on `THR` with the primitives the mapper uses on it
(00_scope.md R15, 30_encoding.md R54, 42_throttle_failsafe.md R88), and times (R16). -/
namespace Sys2Proof.Machine

/-- `isNaN(t)`: exponent all ones, fraction not zero (R15, R96). -/
def isNaN (t : Word) : Bool :=
  t.extractLsb' 23 8 == 0xFF && t.extractLsb' 0 23 != 0

/-- The place of a binary32 pattern that is not a NaN on the number line, as an integer: the 31 low bits with the
sign, so that both zeros are 0 and the infinities are the outermost places. -/
def f32Place (t : Word) : Int :=
  if t.msb then -((t.extractLsb' 0 31).toNat : Int) else ((t.extractLsb' 0 31).toNat : Int)

/-- The IEEE 754 ordered `a < b`: false when either is a NaN, and `-0.0 < 0.0` is false (R15). -/
def f32Lt (a b : Word) : Bool :=
  !isNaN a && !isNaN b && decide (f32Place a < f32Place b)

/-- A finite binary32 value: its sign and its magnitude in units of `2^-149`, the smallest subnormal. -/
structure F32 where
  /-- The sign, kept for zero too. -/
  neg : Bool
  /-- The magnitude in units of `2^-149`. -/
  mag : Nat
  deriving DecidableEq, Repr

/-- The finite value of a pattern whose exponent field is not all ones (R54): sign bit 31, exponent bits 30:23,
fraction bits 22:0. -/
def F32.ofWord (t : Word) : F32 :=
  let e := (t.extractLsb' 23 8).toNat
  let f := (t.extractLsb' 0 23).toNat
  { neg := t.msb, mag := if e = 0 then f else (2 ^ 23 + f) * 2 ^ (e - 1) }

/-- The magnitude nearest to `num / den` (in units of `2^-149`) that has at most 24 significant bits and is a whole
number of units; of two equally near, the one with the even last bit. This is binary32 rounding short of overflow. -/
def roundRatio (num den : Nat) : Nat :=
  let e := Nat.log2 (num / den) - 23
  let q := den * 2 ^ e
  let r := num / q
  let m := num % q
  if q < 2 * m ∨ (2 * m = q ∧ r % 2 = 1) then (r + 1) * 2 ^ e else r * 2 ^ e

/-- `fmul32(a, b)`, the binary32 product rounded to nearest, ties to even (R15), of two finite values whose product
does not overflow: the mapper's own factors are below 1 and below `2^24` (log 13). -/
def fmul32 (a b : F32) : F32 :=
  { neg := a.neg != b.neg, mag := roundRatio (a.mag * b.mag) (2 ^ 149) }

/-- `flt32(n)`, the exact value of an integer with `|n| < 2^24` (R15). -/
def flt32 (n : Int) : F32 :=
  { neg := decide (n < 0), mag := n.natAbs * 2 ^ 149 }

/-- `trunc32(x)`, the integer nearest to `x` in the direction of zero (R15). -/
def trunc32 (x : F32) : Int :=
  if x.neg then -((x.mag / 2 ^ 149 : Nat) : Int) else ((x.mag / 2 ^ 149 : Nat) : Int)

/-- `CLAMP_HI`, the binary32 nearest to 0.999 (R8). -/
def clampHi : Word := 0x3F7FBE77

/-- The throttle clamped to `[0.0, CLAMP_HI]`, for a pattern that is not a NaN (R88). -/
def clampThr (t : Word) : Word :=
  if f32Lt t 0 then 0
  else if f32Lt clampHi t then clampHi
  else t

/-- `elapsed(now, t) = (now - t) mod 2^32` (R16). -/
def elapsed (now t : Word) : Word := now - t

end Sys2Proof.Machine
end

