-- ==== Sys2Proof/Machine/Mapper.lean ====
section
/-! DEFINITION. The range of the mapped value and `MAP_FN` (42_throttle_failsafe.md R89, R90, R91). -/
namespace Sys2Proof.Machine

/-- `lo` of R89: the least value the mapping gives. An integer, as `IDLE_OFFSET` is (log 14). -/
def rangeLo (bidir : Bool) (dir : Direction) (idle : Int) : Int :=
  match bidir, dir with
  | true, .forward => 48 + idle
  | true, .reverse => 1048 + idle
  | false, _ => 48 + 2 * idle

/-- `hi` of R89: the greatest value the mapping gives. -/
def rangeHi (bidir : Bool) (dir : Direction) : Int :=
  match bidir, dir with
  | true, .forward => 1047
  | _, _ => 2047

/-- The scale `S` of R91. -/
def mapScale (bidir : Bool) (idle : Int) : Int :=
  if bidir then 1000 - idle else 2001 - 2 * idle

/-- The reference `MAP_FN` of R91: `lo + trunc32(fmul32(t, flt32(S)))`. -/
def referenceMap (bidir : Bool) (dir : Direction) (idle : Int) (t : Word) : Nat :=
  (rangeLo bidir dir idle + trunc32 (fmul32 (F32.ofWord t) (flt32 (mapScale bidir idle)))).toNat

/-- The direction a mapping reads: `DIR` when `BIDIR = on`; with `BIDIR = off` no rule reads `DIR` (R24, R87), and the one
range is FORWARD's and REVERSE's alike (R89). -/
def mapDir (bidir : Bool) (dir : Direction) : Direction := if bidir then dir else .forward

/-- `MAP_FN(t)` under a configuration and a direction (R9, R24, R90). -/
def mapFn (c : Cfg) (dir : Direction) (t : Word) : Nat :=
  match c.mapFn with
  | .reference => referenceMap c.bidir dir c.idleOffset t
  | .supplied => Config.suppliedMapFn c.bidir (mapDir c.bidir dir) c.idleOffset t

/-- The patterns a clamp leaves: `[0.0, CLAMP_HI]`, with `-0.0` (R88). -/
def clamped (t : Word) : Bool := t == 0x80000000 || decide (t.toNat ≤ clampHi.toNat)

/-- R90's properties (a), (b), (c) of `MAP_FN` in one direction: the endpoints, the bounds, and monotonicity in the
binary32 order. (d) holds by the type of `mapFn`. -/
abbrev r90Properties (c : Cfg) (dir : Direction) : Prop :=
  (mapFn c dir 0 : Int) = rangeLo c.bidir dir c.idleOffset ∧ (mapFn c dir clampHi : Int) = rangeHi c.bidir dir ∧
  (∀ t : Word, clamped t = true →
    rangeLo c.bidir dir c.idleOffset ≤ mapFn c dir t ∧ mapFn c dir t ≤ rangeHi c.bidir dir) ∧
  ∀ a b : Word, clamped a = true → clamped b = true → f32Lt b a = false → mapFn c dir a ≤ mapFn c dir b

/-- `MAP_FN` meets R90 in one direction. -/
def MeetsR90 (c : Cfg) (dir : Direction) : Prop := r90Properties c dir

/-- The check of `MeetsR90`, a search over every throttle: a definition, never evaluated for the reference map. -/
def meetsR90 (c : Cfg) (dir : Direction) : Bool := decide (r90Properties c dir)

end Sys2Proof.Machine
end

