-- ==== Sys2Proof/Machine/State.lean ====
section
/-! DEFINITION. The machine's state (10_state.md R20, R32, R35; 30_encoding.md R50), plain data, and its value after
RESET. INVENTORY.md lists every field with its rule. -/
namespace Sys2Proof.Machine

/-- The block raises no hardware fault and no command stops it (60_exceptions.md R110, R117): this type has no
constructor, and nobody raises one. The model faults of R112 are recorded in `State.faults` and the run goes on
(log 10). -/
inductive Fault
  deriving DecidableEq, Repr

/-- Why a step has no next state. -/
inductive Refusal
  /-- The instruction has no meaning yet. Raised by no arm of `exec` (every command has its meaning). Safe. -/
  | notModelled (mnemonic : String)
  /-- The configuration fails the named check of R131, so the model has no run for it (R113). Raised by `step`, for
  every input. Safe: it is the spec's own refusal. -/
  | illFormedConfig (check : CfgCheck)
  deriving DecidableEq, Repr

/-- A hazard record: `DOUBLE_ENCODE(ch)` (R71, R114). -/
inductive Hazard
  | doubleEncode (ch : Channel)
  deriving DecidableEq, Repr

/-- A model fault as `FAULTS` records it (R112), with its recorded value. -/
inductive ModelFault
  /-- Code 1: an illegal command word (R58). -/
  | illegalCommand (word : Word)
  /-- Code 2: a MAP or THROTTLE with a NaN on `THR` (R88). -/
  | throttleNan (thr : Word)
  deriving DecidableEq, Repr

/-- One record of the output trace (R76). -/
inductive TraceRec
  /-- `PinWrite` of `level` to line `ch` in slot `slot`. -/
  | pinWrite (slot : Slot) (ch : Channel) (level : Bool)
  /-- The model's record that a TRANSMIT ended, with `ENC_MASK` as it was when that TRANSMIT began. -/
  | txDone (mask : BitVec 4)
  deriving DecidableEq, Repr

/-- A command as the host presents it: the word and the two operand buses together (R50, R51). -/
structure Command where
  /-- The command word `CMD`. -/
  cmd : Word
  /-- The throttle operand `THR`. -/
  thr : Word
  /-- The time operand `NOW`. -/
  now : Word
  deriving DecidableEq, Repr

/-- What the host does next (R123, R128, R129). -/
inductive HostInput
  /-- Present a command. -/
  | command (c : Command)
  /-- Assert RESET between commands (R128); also a loss of power with the reset after it (R125, log 9). -/
  | reset
  /-- Present a command and assert RESET while it executes, after it has emitted at most `emitted` output events (R129). -/
  | resetDuring (c : Command) (emitted : Nat)
  deriving DecidableEq, Repr

/-- Everything the spec gives the block, the bookkeeping it gives the model, the configuration, and the host's side. -/
structure State where
  /-- The configuration (R30). No step changes it. -/
  cfg : Cfg
  /-- The pulse timeline `TL` (R28) as (slot, byte) pairs; a slot not listed reads as 0 (R35, log 11). -/
  tl : List Host.Cell
  /-- The Direction State `DIR` (R24). -/
  dir : Direction
  /-- The Failsafe Timer `FS_TIME` (R25). -/
  fsTime : Word
  /-- The Beep Timer `BEEP_TIME` (R26). -/
  beepTime : Word
  /-- The output line levels `PIN[3:0]` (R27). -/
  pin : BitVec 4
  /-- The response word `RESP` (R60). -/
  resp : BitVec 16
  /-- `ENC_MASK[3:0]`, the channels encoded since the last TRANSMIT (R32, R71). -/
  encMask : BitVec 4
  /-- `HAZ`, the sticky set of hazards (R32, R114), strictly rising in `Hazard.key` (log 12). -/
  haz : List Hazard
  /-- `FAULTS`, the sticky set of model faults (R32, R112), strictly rising in `ModelFault.key` (log 12). -/
  faults : List ModelFault
  /-- The output trace of this run, oldest record first (R76). -/
  trace : List TraceRec
  /-- The traces of the runs that a RESET ended, oldest first (R129, log 7). -/
  past : List (List TraceRec)
  /-- The signal `CMD` (R50). -/
  cmd : Word
  /-- The signal `THR` (R50). -/
  thr : Word
  /-- The signal `NOW` (R50). -/
  now : Word
  /-- What the host does from here on, in order (R51, R134, log 1). -/
  host : List HostInput
  deriving DecidableEq, Repr

/-- The state RESET leaves under a configuration (R35, R128), with no earlier run, idle buses and no host input. -/
def State.resetWith (cfg : Cfg) : State where
  cfg := cfg
  tl := []
  dir := .forward
  fsTime := BitVec.ofNat 32 cfg.fsTimeReset
  beepTime := 0
  pin := 0
  resp := 0
  encMask := 0
  haz := []
  faults := []
  trace := []
  past := []
  cmd := 0
  thr := 0
  now := 0
  host := []

/-- The machine right after reset. -/
def State.reset : State := State.resetWith Config.cfg

end Sys2Proof.Machine
end

