-- ==== Sys2Proof/Machine/Ops.lean ====
section
/-! DEFINITION. The named operations on the state: the timeline's memory, the registers, the lines and the trace,
recording a hazard, recording a model fault (the block's one "exception", 60_exceptions.md R112, R117), RESET. -/
namespace Sys2Proof.Machine

/-- Put `a` into a list that rises strictly in `key`, in place of an element with the same key. Sets of records
are held as such lists, so that equal sets are equal data (log 12). -/
def insertBy {α : Type} (key : α → Nat) (a : α) : List α → List α
  | [] => [a]
  | b :: l =>
    if key a < key b then a :: b :: l
    else if key a = key b then a :: l
    else b :: insertBy key a l

/-- The order of hazard records. -/
def Hazard.key : Hazard → Nat
  | .doubleEncode ch => ch.val

/-- The order of model faults: R112's code, then the recorded value. -/
def ModelFault.key : ModelFault → Nat
  | .illegalCommand w => 2 ^ 32 * 1 + w.toNat
  | .throttleNan t => 2 ^ 32 * 2 + t.toNat

/-- What a slot that is not listed reads as: the reset contents (R35). -/
abbrev unlistedSlot : Byte := 0

/-- Read the byte at an address. -/
def Memory.read : List Host.Cell → Nat → Byte
  | [], _ => unlistedSlot
  | (a, v) :: m, i => if a = i then v else Memory.read m i

/-- Write a byte, keeping the canonical form: the address is listed only when the byte differs from `unlistedSlot`. -/
def Memory.write (m : List Host.Cell) (i : Nat) (v : Byte) : List Host.Cell :=
  let rest := m.filter (fun c => c.1 ≠ i)
  if v = unlistedSlot then rest else insertBy Prod.fst (i, v) rest

/-- The canonical form: addresses strictly rising, all of them slots (R36), no entry equal to `unlistedSlot`. -/
abbrev Memory.wf (m : List Host.Cell) : Prop :=
  m.Pairwise (fun c d => c.1 < d.1) ∧ ∀ c ∈ m, c.1 < 64 ∧ c.2 ≠ unlistedSlot

/-- The slot that holds quarter `j` of protocol bit `k`: `4k + j` (R37). -/
def slotOf (k : BitIx) (j : Fin 4) : Slot := ⟨4 * k.val + j.val, by omega⟩

/-- The slots in order. -/
def allSlots : List Slot := List.finRange 64

/-- The protocol bits in order. -/
def allBits : List BitIx := List.finRange 16

/-- The channels in index order. -/
def allChannels : List Channel := List.finRange 4

/-- The mask with only a channel's bit: bit `ch` is channel `ch` (R28). -/
def laneBit (ch : Channel) : Byte := 1#8 <<< ch.val

/-- `TL[i]`, `MemRead(i, 1)` (R13). -/
def State.tlRead (s : State) (i : Slot) : Byte := Memory.read s.tl i.val

/-- `TL[i] <- v`, `MemWrite(i, 1, v)` (R13). -/
def State.tlWrite (s : State) (i : Slot) (v : Byte) : State := { s with tl := Memory.write s.tl i.val v }

/-- The encoder's one write: `TL[i] <- TL[i] | (1 << ch)` (R38). -/
def State.tlOr (s : State) (i : Slot) (ch : Channel) : State := s.tlWrite i (s.tlRead i ||| laneBit ch)

/-- A 4-bit vector with bit `ch` set to `b`. -/
def setLane (v : BitVec 4) (ch : Channel) (b : Bool) : BitVec 4 :=
  if b then v ||| (1#4 <<< ch.val) else v &&& ~~~(1#4 <<< ch.val)

/-- The level of output line `LINE[ch]`, which carries `PIN[ch]` (R50, R121). -/
def State.line (s : State) (ch : Channel) : Bool := s.pin.getLsbD ch.val

/-- Append a record to the output trace. -/
def State.emit (s : State) (r : TraceRec) : State := { s with trace := s.trace ++ [r] }

/-- Drive the line's level, without the trace event. -/
def State.setPin (s : State) (ch : Channel) (level : Bool) : State := { s with pin := setLane s.pin ch level }

/-- `PinWrite(ch, level)` in slot `i`: drive the line and record the event (R14, R76). -/
def State.pinWrite (s : State) (i : Slot) (ch : Channel) (level : Bool) : State :=
  (s.setPin ch level).emit (.pinWrite i ch level)

/-- `DIR <- d`. -/
def State.setDir (s : State) (d : Direction) : State := { s with dir := d }

/-- `FS_TIME <- t`. -/
def State.setFsTime (s : State) (t : Word) : State := { s with fsTime := t }

/-- `BEEP_TIME <- t`. -/
def State.setBeepTime (s : State) (t : Word) : State := { s with beepTime := t }

/-- `resp <- r` (R14, R60). -/
def State.setResp (s : State) (r : BitVec 16) : State := { s with resp := r }

/-- `ENC_MASK[ch] <- 1` (R71). -/
def State.markEncoded (s : State) (ch : Channel) : State := { s with encMask := setLane s.encMask ch true }

/-- `ENC_MASK <- 0000` (R75). -/
def State.clearEncMask (s : State) : State := { s with encMask := 0 }

/-- `HAZ <- HAZ ∪ {h}` (R114). -/
def State.recordHazard (s : State) (h : Hazard) : State := { s with haz := insertBy Hazard.key h s.haz }

/-- `raise Fault(kind)`: record the model fault in the sticky set and do nothing else (R14, R112, R117). This is all
the block has of an exception: nothing is saved, no mode changes, nothing is returned from (R117). -/
def State.raiseFault (s : State) (f : ModelFault) : State := { s with faults := insertBy ModelFault.key f s.faults }

/-- An illegal command word: no hardware state changes but `RESP <- 0`, and `ILLEGAL_COMMAND` records the word (R58). -/
def State.illegalCommand (s : State) : State := (s.raiseFault (.illegalCommand s.cmd)).setResp 0

/-- A command arrives: its word and buses stand on the signals (R50, R51). -/
def State.present (s : State) (c : Command) : State := { s with cmd := c.cmd, thr := c.thr, now := c.now }

/-- The host's remaining inputs, once the first is taken. -/
def State.setHost (s : State) (h : List HostInput) : State := { s with host := h }

/-- RESET (R128): every piece of state at its reset value, the configuration as it is, and a new run begun, the trace
of the old one kept with the earlier runs'. The signals and the remaining inputs are the host's and stay. -/
def State.applyReset (s : State) : State :=
  { State.resetWith s.cfg with
    past := s.past ++ [s.trace], cmd := s.cmd, thr := s.thr, now := s.now, host := s.host }

/-- Is the record an output event (R76), not the model's own `TXDONE`? -/
def TraceRec.isPinWrite : TraceRec → Bool
  | .pinWrite _ _ _ => true
  | .txDone _ => false

/-- RESET during a command that would have ended in `done`: the trace keeps the first `emitted` output events of
the command, the ones before the reset, and everything is reset (R129). -/
def State.abort (s done : State) (emitted : Nat) : State :=
  State.applyReset
    { s with trace := s.trace ++ ((done.trace.drop s.trace.length).filter TraceRec.isPinWrite).take emitted }

end Sys2Proof.Machine
end

