-- ==== Sys2Proof/Machine/Transmitter.lean ====
section
/-! DEFINITION. The Bit-Bang Transmitter: TRANSMIT (41_transmitter.md). Its slot index, channel index and slot value
(10_state.md R31) are the variables of the two loops below. The slot delay that ends a slot takes time and changes no
state: Machine/Timing.lean. -/
namespace Sys2Proof.Machine

/-- Send one slot: read it whole, clear it, then write the four lines in index order (R39, R75). -/
def sendSlot (s : State) (i : Slot) : State :=
  allChannels.foldl (fun s' ch => s'.pinWrite i ch ((s.tlRead i).getLsbD ch.val)) (s.tlWrite i 0)

/-- Send every slot in order (R75). -/
def sendAll (s : State) : State := allSlots.foldl sendSlot s

/-- The TRANSMIT body, without the response, which THROTTLE and BEEP_TICK perform too (R75). -/
def transmitBody (s : State) : State :=
  let s1 := sendAll s
  (s1.emit (.txDone s1.encMask)).clearEncMask

/-- TRANSMIT (R75). -/
def execTransmit (s : State) : Host.Outcome State Fault Refusal := .next ((transmitBody s).setResp 0)

/-- The events of one slot of a TRANSMIT that begins in `s`: channel by channel, the bits of the slot (R75, R76). -/
def slotEvents (s : State) (i : Slot) : List TraceRec :=
  allChannels.map (fun ch => .pinWrite i ch ((s.tlRead i).getLsbD ch.val))

/-- The 256 events of a TRANSMIT that begins in `s`, slot-major and channel-minor (R76). -/
def transmitEvents (s : State) : List TraceRec := allSlots.flatMap (slotEvents s)

end Sys2Proof.Machine
end

