-- ==== Sys2Proof/Machine/Timing.lean ====
section
/-! DEFINITION. The waveform timing of a TRANSMIT under the configured profile (41_transmitter.md R81, R82, R83, R85;
70_reset_and_hazards.md R145), as functions of the configuration. No functional rule reads it (00_scope.md R10): no step does.
Times are in one unspecified unit (log 5). -/
namespace Sys2Proof.Machine

/-- How far `T_BIT(SLOW)` may be from `2 * T_BIT(FAST)` to be "roughly" that (R131): open, but less than `T_BIT(FAST)`, so
that the slow profile is the slower one. DEDUCED, unsafe (log 3). -/
def slowTolerance (bitFast : Nat) : Nat := Config.slowToleranceSeed bitFast % bitFast

/-- The timing parameters of a build whose numbers are OPEN: any numbers that `CFG_TIMING` accepts (log 2, log 3). -/
def openTiming : Timing :=
  let s := Config.timingSeed
  let fast := s.slot + 1
  let d := s.deviation % (slowTolerance (4 * fast) / 4 + 1)
  let slow := if s.longer then 2 * fast + d else 2 * fast - d
  { bitFast := 4 * fast, bitSlow := 4 * slow, slotFast := fast, slotSlow := slow, nopSet := s.nopSet
    nopReset := s.nopSet + 1 + s.nopGap, nopSlotFast := s.nopSlotFast, nopSlotSlow := s.nopSlotSlow
    edgeSkewMax := s.edgeSkewMax }

/-- The timing parameters of a configuration (R10). -/
def timingOf (c : Cfg) : Timing :=
  match c.timing with
  | .unstated => openTiming
  | .given t => t

/-- What `CFG_TIMING` wants of the numbers (R131): `T_SLOT(p) = T_BIT(p) / 4` exactly, `NOP_SET < NOP_RESET`, and
`T_BIT(SLOW)` within the tolerance of `2 * T_BIT(FAST)`. A bit lasts some time, since an offset below `T_SLOT` exists
(R82, log 3). -/
abbrev meetsCfgTiming (t : Timing) : Prop :=
  0 < t.bitFast ∧ t.bitFast = 4 * t.slotFast ∧ t.bitSlow = 4 * t.slotSlow ∧ t.nopSet < t.nopReset ∧
    t.bitSlow ≤ 2 * t.bitFast + slowTolerance t.bitFast ∧ 2 * t.bitFast ≤ t.bitSlow + slowTolerance t.bitFast

/-- `PROFILE`: the configured profile, when exactly one is selected (R85). -/
def selectedProfile (c : Cfg) : Option Profile :=
  match c.profiles with
  | [p] => some p
  | _ => none

/-- `T_SLOT(p)` (R10, R81). -/
def slotTime (tm : Timing) : Profile → Nat
  | .fast => tm.slotFast
  | .slow => tm.slotSlow

/-- `T_BIT(p)` (R10). -/
def bitTime (tm : Timing) : Profile → Nat
  | .fast => tm.bitFast
  | .slow => tm.bitSlow

/-- The delay cycles before a write of `level`: `NOP_SET` before a set, `NOP_RESET` before a reset (R82). -/
def delayBefore (tm : Timing) (level : Bool) : Nat := if level then tm.nopSet else tm.nopReset

/-- `SlotDelay(p)`: the delay cycles after the four pin writes of a slot, `NOP_SLOT(p)` (R14, R83). -/
def slotDelay (tm : Timing) : Profile → Nat
  | .fast => tm.nopSlotFast
  | .slow => tm.nopSlotSlow

/-- `OFF(ch, d)` (R82): OPEN, below `T_SLOT`, and for one slot value within `EDGE_SKEW_MAX` from channel to channel. Every
function with those two properties is an `offBase` and an `offLag` (log 5). -/
def writeOffset (tm : Timing) (p : Profile) (ch : Channel) (d : Byte) : Nat :=
  min (slotTime tm p - 1) (Config.offBase d + Config.offLag ch d % (tm.edgeSkewMax + 1))

/-- When write `(i, ch)` of a slot value `d` happens in a TRANSMIT that begins at `t0` (R82). -/
def writeTime (tm : Timing) (p : Profile) (t0 : Nat) (i : Slot) (ch : Channel) (d : Byte) : Nat :=
  t0 + i.val * slotTime tm p + writeOffset tm p ch d

/-- The events of a TRANSMIT that begins in `s` at `t0`, each with its time under a profile (R76, R82). -/
def timedEvents (s : State) (p : Profile) (t0 : Nat) : List (Nat × TraceRec) :=
  allSlots.flatMap (fun i => allChannels.map (fun ch =>
    (writeTime (timingOf s.cfg) p t0 i ch (s.tlRead i), .pinWrite i ch ((s.tlRead i).getLsbD ch.val))))

/-- The timed waveform of a TRANSMIT that begins in `s` at `t0`, under the configured profile (R81, R82). None without one
profile, a configuration that is refused (R85). -/
def waveform (s : State) (t0 : Nat) : Option (List (Nat × TraceRec)) :=
  (selectedProfile s.cfg).map (fun p => timedEvents s p t0)

/-- `T_SLOT(PROFILE)`, how long every slot of a TRANSMIT lasts (R81). -/
def slotDuration (c : Cfg) : Option Nat := (selectedProfile c).map (slotTime (timingOf c))

/-- How long the 64 slots of a TRANSMIT last (R81, R145). -/
def transmitTime (c : Cfg) : Option Nat := (slotDuration c).map (64 * ·)

/-- `SlotDelay(PROFILE)`, the delay that ends each slot of a TRANSMIT (R75, R83). -/
def transmitSlotDelay (c : Cfg) : Option Nat := (selectedProfile c).map (slotDelay (timingOf c))

end Sys2Proof.Machine
end

