-- ==== Sys2Proof/Machine/CfgCheck.lean ====
section
/-! DEFINITION. When a configuration is well formed (70_reset_and_hazards.md R131, R132). -/
namespace Sys2Proof.Machine

/-- `CFG_PROFILE`: exactly one profile is selected (R85). -/
def cfgProfileOk (c : Cfg) : Bool := c.profiles.length == 1

/-- The legal offsets of the reference map: 0..999 when `BIDIR = on`, 1..500 when `off` (R132). The offset is looked at
first, so that the check of an offset legal for both evaluates while `BIDIR` is open. -/
def idleInReferenceRange (bidir : Bool) (idle : Int) : Bool :=
  ((decide (0 ≤ idle) && decide (idle ≤ 999)) || !bidir) && ((decide (1 ≤ idle) && decide (idle ≤ 500)) || bidir)

/-- `CFG_IDLE`: R132's range for the reference map; for another map, `lo ≤ hi` in every direction (R132). -/
def cfgIdleOk (c : Cfg) : Bool :=
  match c.mapFn with
  | .reference => idleInReferenceRange c.bidir c.idleOffset
  | .supplied =>
    decide (rangeLo c.bidir .forward c.idleOffset ≤ rangeHi c.bidir .forward)
      && decide (rangeLo c.bidir .reverse c.idleOffset ≤ rangeHi c.bidir .reverse)

/-- `CFG_TIMEOUT`. -/
def cfgTimeoutOk (c : Cfg) : Bool := decide (c.beepTimeoutUs < 2 ^ 32)

/-- `CFG_CODES`. -/
def cfgCodesOk (c : Cfg) : Bool :=
  decide (c.beepCode1 ≤ 2047) && decide (c.beepCode2 ≤ 2047) && decide (c.beepCode3 ≤ 2047) && decide (c.beepCode4 ≤ 2047)

/-- `CFG_MAPFN`: `MAP_FN` meets R90. The reference map does for every legal offset (R91), so it is not searched again;
a supplied map is asked at every throttle in both directions. -/
def cfgMapFnOk (c : Cfg) : Bool :=
  match c.mapFn with
  | .reference => true
  | .supplied => meetsR90 c .forward && meetsR90 c .reverse

/-- `CFG_FSRESET`. -/
def cfgFsResetOk (c : Cfg) : Bool := decide (c.fsTimeReset < 2 ^ 32)

/-- `CFG_TIMING`. The unstated numbers pass it whatever they are (`openTiming`). -/
def cfgTimingOk (c : Cfg) : Bool :=
  match c.timing with
  | .unstated => true
  | .given t => decide (meetsCfgTiming t)

/-- The first check of R131 that a configuration fails; `none` when it is well formed. -/
def failingCheck (c : Cfg) : Option CfgCheck :=
  if !cfgProfileOk c then some .profile
  else if !cfgIdleOk c then some .idle
  else if !cfgTimeoutOk c then some .timeout
  else if !cfgCodesOk c then some .codes
  else if !cfgMapFnOk c then some .mapFn
  else if !cfgFsResetOk c then some .fsReset
  else if !cfgTimingOk c then some .timing
  else none

end Sys2Proof.Machine
end

