-- ==== Sys2Proof/Machine/Flags.lean ====
section
/-! DEFINITION. The block has no condition codes (10_state.md R23). What it reports instead: the states of its two
derived state machines (R33, R34, R105) and the response words that carry them (30_encoding.md R60). -/
namespace Sys2Proof.Machine

/-- The failsafe state after the latch update (R33). -/
inductive FsState
  | clear | untimed | grace | cutoff
  deriving DecidableEq, Repr

/-- The code of a failsafe state in `RESP[13:12]` (R60). -/
def FsState.code : FsState → BitVec 2
  | .clear => 0
  | .untimed => 1
  | .grace => 2
  | .cutoff => 3

/-- The beep state of a tick (R105). -/
inductive BeepState
  | inactive | waiting | beeping
  deriving DecidableEq, Repr

/-- The code of a beep state in `RESP[14:13]` (R60). -/
def BeepState.code : BeepState → BitVec 2
  | .inactive => 0
  | .waiting => 1
  | .beeping => 2

/-- MAP's and THROTTLE's response: `{00, st[1:0], 0, value[10:0]}` (R60, R96). -/
def mapResponse (st : FsState) (value : Value) : BitVec 16 := 0#2 ++ st.code ++ 0#1 ++ value

/-- BEEP_TICK's response: `{sent, bst[1:0], 00, code[10:0]}` (R60, R104). -/
def beepResponse (sent : Bool) (bst : BeepState) (code : Value) : BitVec 16 :=
  BitVec.ofBool sent ++ bst.code ++ 0#2 ++ code

end Sys2Proof.Machine
end

