-- ==== Sys2Proof/Machine/FrameEncoder.lean ====
section
/-! DEFINITION. The Frame Encoder: frames, rendering, and ENCODE (40_frame_encoder.md). -/
namespace Sys2Proof.Machine

/-- The 12-bit field `F = {value, tlm}` (R64). -/
def frameField (value : Value) (tlm : Bool) : BitVec 12 := value ++ BitVec.ofBool tlm

/-- The XOR of a 12-bit field's three nibbles (R65). -/
def nibbleXor (f : BitVec 12) : BitVec 4 := f.extractLsb' 0 4 ^^^ f.extractLsb' 4 4 ^^^ f.extractLsb' 8 4

/-- The frame `W = {F, C}` (R66). -/
def frame (value : Value) (tlm : Bool) : BitVec 16 := frameField value tlm ++ nibbleXor (frameField value tlm)

/-- A valid frame: the low nibble is the XOR of the other three (R67). -/
def frameValid (w : BitVec 16) : Bool :=
  w.extractLsb' 0 4 == w.extractLsb' 4 4 ^^^ w.extractLsb' 8 4 ^^^ w.extractLsb' 12 4

/-- The value a frame carries, `W[15:5]` (R67). -/
def frameValue (w : BitVec 16) : Value := w.extractLsb' 5 11

/-- The telemetry flag a frame carries, `W[4]` (R67). -/
def frameTlm (w : BitVec 16) : Bool := w.getLsbD 4

/-- Protocol bit `k` of a frame, counted from the most significant: `W[15-k]` (R37, R42). -/
def frameBit (w : BitVec 16) (k : BitIx) : Bool := w.getLsbD (15 - k.val)

/-- The pulse shape of a frame on a lane (R68, R69): slot `4k` is high, `4k+1` and `4k+2` carry bit `k`, `4k+3` is low. -/
def pulse (w : BitVec 16) (i : Slot) : Bool :=
  match i.val % 4 with
  | 0 => true
  | 3 => false
  | _ => frameBit w ⟨i.val / 4, by omega⟩

/-- Render one protocol bit for a channel: slot `4k` always, slots `4k+1` and `4k+2` for a 1 (R68). -/
def renderBit (ch : Channel) (w : BitVec 16) (s : State) (k : BitIx) : State :=
  let s1 := s.tlOr (slotOf k 0) ch
  if frameBit w k then (s1.tlOr (slotOf k 1) ch).tlOr (slotOf k 2) ch else s1

/-- Render a channel's frame into the timeline, bit by bit (R68). -/
def renderFrame (s : State) (ch : Channel) (w : BitVec 16) : State := allBits.foldl (renderBit ch w) s

/-- The bookkeeping of an encode: a second encode of a channel since the last TRANSMIT is a hazard (R71). -/
def noteEncode (s : State) (ch : Channel) : State :=
  let s1 := if s.encMask.getLsbD ch.val then s.recordHazard (.doubleEncode ch) else s
  s1.markEncoded ch

/-- The ENCODE body, without the response, which THROTTLE and BEEP_TICK perform too (R70). -/
def encodeBody (ch : Channel) (value : Value) (tlm : Bool) (s : State) : State :=
  noteEncode (renderFrame s ch (frame value tlm)) ch

/-- ENCODE (R70). -/
def execEncode (ch : Channel) (value : Value) (tlm : Bool) (s : State) : Host.Outcome State Fault Refusal :=
  .next ((encodeBody ch value tlm s).setResp 0)

end Sys2Proof.Machine
end

