-- ==== Sys2Proof/Machine/Beep.lean ====
section
/-! DEFINITION. The Beep Sequencer: windows, codes and BEEP_TICK (43_beep.md). -/
namespace Sys2Proof.Machine

/-- `BEEP_PERIOD_US` (R8). -/
abbrev beepPeriodUs : Nat := 2000000

/-- `BEEP_WINDOW_US` (R8). -/
abbrev beepWindowUs : Nat := 250000

/-- The code of the window that holds `p`, in the order 1, 3, 2, 4; `none` in the silent second (R102). -/
def windowCode (c : Cfg) (p : Nat) : Option Value :=
  if p < beepWindowUs then some (BitVec.ofNat 11 c.beepCode1)
  else if p < 2 * beepWindowUs then some (BitVec.ofNat 11 c.beepCode3)
  else if p < 3 * beepWindowUs then some (BitVec.ofNat 11 c.beepCode2)
  else if p < 4 * beepWindowUs then some (BitVec.ofNat 11 c.beepCode4)
  else none

/-- `BEEP_TIME` after a tick's latch update: the onset is latched, and failsafe clear is 0 (R104). -/
def beepLatch (fs : Bool) (now beepTime : Word) : Word :=
  if fs then (if beepTime = 0 then now else beepTime) else 0

/-- The elapsed time of the episode, from the latched onset (R104). -/
def State.beepElapsed (s : State) (fs : Bool) : Nat := (elapsed s.now (beepLatch fs s.now s.beepTime)).toNat

/-- The beep state of a tick (R105). -/
def State.beepState (s : State) (fs : Bool) : BeepState :=
  if fs then (if s.cfg.beepTimeoutUs < s.beepElapsed fs then .beeping else .waiting) else .inactive

/-- The code a tick sends, if it sends one: beeping, and inside a window (R104). -/
def State.beepHit (s : State) (fs : Bool) : Option Value :=
  match s.beepState fs with
  | .beeping => windowCode s.cfg (s.beepElapsed fs % beepPeriodUs)
  | .waiting => none
  | .inactive => none

/-- Encode the same frame, telemetry set, on every channel, and send the timeline (R103, R104). -/
def injectBeep (code : Value) (s : State) : State :=
  transmitBody (allChannels.foldl (fun s' ch => encodeBody ch code true s') s)

/-- BEEP_TICK (R104). -/
def execBeepTick (fs : Bool) (s : State) : Host.Outcome State Fault Refusal :=
  let s1 := s.setBeepTime (beepLatch fs s.now s.beepTime)
  match s.beepHit fs with
  | some code => .next ((injectBeep code s1).setResp (beepResponse true (s.beepState fs) code))
  | none => .next (s1.setResp (beepResponse false (s.beepState fs) 0))

end Sys2Proof.Machine
end

