-- ==== Sys2Proof/Machine/Throttle.lean ====
section
/-! DEFINITION. The failsafe latch and the commands SET_DIR, MAP and THROTTLE (42_throttle_failsafe.md). -/
namespace Sys2Proof.Machine

/-- `FS_CUTOFF_US` (R8). -/
abbrev fsCutoffUs : Nat := 100000

/-- What the failsafe latch gives: the new `FS_TIME`, the cutoff decision, the state (R92). -/
structure Latch where
  /-- `FS_TIME` after the latch. -/
  fsTime : Word
  /-- Is the value cut off to 0? -/
  cut : Bool
  /-- The failsafe state of R33. -/
  st : FsState
  deriving DecidableEq, Repr

/-- `FailsafeLatch(fs, now)` on `FS_TIME` (R92). -/
def failsafeLatch (fs : Bool) (now fsTime : Word) : Latch :=
  if fs then
    let onset := if fsTime = 0 then now else fsTime
    if onset = 0 then ⟨onset, false, .untimed⟩
    else if fsCutoffUs < (elapsed now onset).toNat then ⟨onset, true, .cutoff⟩
    else ⟨onset, false, .grace⟩
  else ⟨0, false, .clear⟩

/-- The latch a MAP or THROTTLE runs in a state (R93: whatever its channel). -/
def State.latch (s : State) (fs : Bool) : Latch := failsafeLatch fs s.now s.fsTime

/-- The base mapping of the throttle on the bus (R95: clamp, then `MAP_FN`). -/
def State.baseMap (s : State) : Nat := mapFn s.cfg s.dir (clampThr s.thr)

/-- The value a MAP or THROTTLE produces: the base mapping, 0 on the ground, 0 when cut off (R95). -/
def State.mapValue (s : State) (gnd fs : Bool) : Value :=
  if gnd || (s.latch fs).cut then 0 else BitVec.ofNat 11 s.baseMap

/-- A MAP or THROTTLE finds a NaN on `THR` (R88). -/
def State.throttleNan (s : State) : State := s.raiseFault (.throttleNan s.thr)

/-- SET_DIR (R87). -/
def execSetDir (dir : Direction) (s : State) : Host.Outcome State Fault Refusal :=
  .next ((s.setDir dir).setResp 0)

/-- MAP (R96). The channel operand changes nothing. -/
def execMap (_ch : Channel) (gnd fs : Bool) (s : State) : Host.Outcome State Fault Refusal :=
  if isNaN s.thr then .next s.throttleNan
  else .next ((s.setFsTime (s.latch fs).fsTime).setResp (mapResponse (s.latch fs).st (s.mapValue gnd fs)))

/-- The transmit trigger of a control cycle: channel index 3 (R97). -/
def transmitIfLast (ch : Channel) (s : State) : State := if ch = 3 then transmitBody s else s

/-- THROTTLE (R97): map, encode with telemetry 0, and on channel 3 transmit. -/
def execThrottle (ch : Channel) (gnd fs : Bool) (s : State) : Host.Outcome State Fault Refusal :=
  if isNaN s.thr then .next s.throttleNan
  else .next
    ((transmitIfLast ch (encodeBody ch (s.mapValue gnd fs) false (s.setFsTime (s.latch fs).fsTime))).setResp
      (mapResponse (s.latch fs).st (s.mapValue gnd fs)))

end Sys2Proof.Machine
end

