-- ==== Sys2Proof/Machine/Dispatch.lean ====
section
/-! DEFINITION. One arm per command (30_encoding.md R57). -/
namespace Sys2Proof.Machine

def exec (i : Instr) (s : State) : Host.Outcome State Fault Refusal :=
  match i with
  | .encode ch value tlm => Sys2Proof.Machine.execEncode ch value tlm s
  | .transmit => Sys2Proof.Machine.execTransmit s
  | .map ch gnd fs => Sys2Proof.Machine.execMap ch gnd fs s
  | .throttle ch gnd fs => Sys2Proof.Machine.execThrottle ch gnd fs s
  | .beepTick fs => Sys2Proof.Machine.execBeepTick fs s
  | .setDir dir => Sys2Proof.Machine.execSetDir dir s

end Sys2Proof.Machine
end

