-- ==== Sys2Proof/Machine/Interface.lean ====
section
/-! DEFINITION. What the block does with one input of the host (30_encoding.md R51, R58; 70_reset_and_hazards.md R128,
R129): the part of a step that a repair may mend. -/
namespace Sys2Proof.Machine

/-- Execute a presented command: decode its word; an illegal word records its fault, a legal one runs (R51, R58, R116). -/
def runCommand (c : Command) (s : State) : Host.Outcome State Fault Refusal :=
  match decode c.cmd with
  | .ok i => exec i (s.present c)
  | .error _ => .next (s.present c).illegalCommand

/-- RESET while a command executes: the command's output events before the reset stay in the trace (R129). No command
faults or is refused, so the last two cases do not arise; RESET would take priority over either (R116). -/
def resetDuring (c : Command) (emitted : Nat) (s : State) : State :=
  match runCommand c s with
  | .next done => (s.present c).abort done emitted
  | .fault _ => (s.present c).applyReset
  | .refused _ => (s.present c).applyReset

/-- One input of the host. -/
def runInput (h : HostInput) (s : State) : Host.Outcome State Fault Refusal :=
  match h with
  | .command c => runCommand c s
  | .reset => .next s.applyReset
  | .resetDuring c emitted => .next (resetDuring c emitted s)

/-- Take the host's next input; with none left the block is idle and keeps all state (R125, log 15). -/
def runNext (s : State) : Host.Outcome State Fault Refusal :=
  match s.host with
  | [] => .next s
  | h :: rest => runInput h (s.setHost rest)

end Sys2Proof.Machine
end

