-- ==== Sys2Proof/Machine/Step.lean ====
section
/-! DEFINITION. One step: one input of the host (70_reset_and_hazards.md R134), under a well-formed configuration (R113). -/
namespace Sys2Proof.Machine

/-- One step of the machine. A configuration that fails a check of R131 is refused by the check's name: the model has
no run for it (R113). -/
def step (s : State) : Host.Outcome State Fault Refusal :=
  match failingCheck s.cfg with
  | some check => .refused (.illFormedConfig check)
  | none => runNext s

/-- `s` with the command word `w` (its bits above `nbits` 0) as the host's next input, the buses as they stand. There is no
instruction memory: this stands for the host presenting the command (log 1). -/
def State.withFetchWord (s : State) (nbits w : Nat) : State :=
  s.setHost (.command ⟨BitVec.ofNat 32 (w % 2 ^ nbits), s.thr, s.now⟩ :: s.host)

end Sys2Proof.Machine
end

