-- ==== Sys2Proof/Machine/Assembler.lean ====
section
/-! DEFINITION. The assembly forms and the two pseudo-commands (30_encoding.md R61, R62), with their operands already read
as numbers: an operand out of range is an assembly error, not a command. A command that reads no bus is presented with
both buses 0 (R56: they are ignored; log 16). -/
namespace Sys2Proof.Machine

/-- A throttle operand (R61). -/
inductive ThrLit
  /-- `f:0xHHHHHHHH`: the bus pattern directly. -/
  | bits (pattern : Word)
  /-- A decimal literal: `digits / 10 ^ places`, with a minus sign when `neg`. -/
  | decimal (neg : Bool) (digits places : Nat)
  deriving DecidableEq, Repr

/-- The pattern of a magnitude that binary32 can hold, in units of `2^-149`; one that rounding has taken past the
greatest finite value is an infinity (R54). -/
def f32Pattern (neg : Bool) (mag : Nat) : Word :=
  let e := Nat.log2 mag - 23
  let low :=
    if 2 ^ 277 ≤ mag then 0x7F800000
    else if mag < 2 ^ 23 then mag
    else (e + 1) * 2 ^ 23 + (mag / 2 ^ e - 2 ^ 23)
  BitVec.ofNat 32 (low + if neg then 2 ^ 31 else 0)

/-- The bus pattern of a throttle operand: a decimal is rounded to the nearest binary32 value, ties to even (R61). -/
def ThrLit.word : ThrLit → Word
  | .bits pattern => pattern
  | .decimal neg digits places => f32Pattern neg (roundRatio (digits * 2 ^ 149) (10 ^ places))

/-- A line of assembly (R61, R62). -/
inductive Asm
  | encode (ch value tlm : Nat)
  | transmit
  | map (ch : Nat) (thr : ThrLit) (now gnd fs : Nat)
  | throttle (ch : Nat) (thr : ThrLit) (now gnd fs : Nat)
  | beepTick (now fs : Nat)
  | setDir (dir : Direction)
  /-- `CYCLE t0, t1, t2, t3, now, gnd, fs` (R62). -/
  | cycle (t0 t1 t2 t3 : ThrLit) (now gnd fs : Nat)
  /-- `BEEPFRAME code` (R62). -/
  | beepFrame (code : Nat)
  deriving DecidableEq, Repr

/-- The operand ranges of R61. -/
def Asm.operandsOk : Asm → Bool
  | .encode ch value tlm => decide (ch < 4) && decide (value < 2048) && decide (tlm < 2)
  | .transmit => true
  | .map ch _ now gnd fs => decide (ch < 4) && decide (now < 2 ^ 32) && decide (gnd < 2) && decide (fs < 2)
  | .throttle ch _ now gnd fs => decide (ch < 4) && decide (now < 2 ^ 32) && decide (gnd < 2) && decide (fs < 2)
  | .beepTick now fs => decide (now < 2 ^ 32) && decide (fs < 2)
  | .setDir _ => true
  | .cycle _ _ _ _ now gnd fs => decide (now < 2 ^ 32) && decide (gnd < 2) && decide (fs < 2)
  | .beepFrame code => decide (code < 2048)

/-- A command presented with a throttle and a time. -/
def timedCommand (i : Instr) (thr : ThrLit) (now : Nat) : Command := ⟨Sys2Proof.encode i, thr.word, BitVec.ofNat 32 now⟩

/-- A command that reads no bus. -/
def plainCommand (i : Instr) : Command := ⟨Sys2Proof.encode i, 0, 0⟩

/-- The commands of a line whose operands are in range, in order (R61, R62). -/
def Asm.commands : Asm → List Command
  | .encode ch value tlm => [plainCommand (.encode (Fin.ofNat 4 ch) (BitVec.ofNat 11 value) (tlm == 1))]
  | .transmit => [plainCommand .transmit]
  | .map ch thr now gnd fs => [timedCommand (.map (Fin.ofNat 4 ch) (gnd == 1) (fs == 1)) thr now]
  | .throttle ch thr now gnd fs => [timedCommand (.throttle (Fin.ofNat 4 ch) (gnd == 1) (fs == 1)) thr now]
  | .beepTick now fs => [⟨Sys2Proof.encode (.beepTick (fs == 1)), 0, BitVec.ofNat 32 now⟩]
  | .setDir dir => [plainCommand (.setDir dir)]
  | .cycle t0 t1 t2 t3 now gnd fs =>
    [timedCommand (.throttle 0 (gnd == 1) (fs == 1)) t0 now, timedCommand (.throttle 1 (gnd == 1) (fs == 1)) t1 now,
     timedCommand (.throttle 2 (gnd == 1) (fs == 1)) t2 now, timedCommand (.throttle 3 (gnd == 1) (fs == 1)) t3 now]
  | .beepFrame code =>
    [plainCommand (.encode 0 (BitVec.ofNat 11 code) true), plainCommand (.encode 1 (BitVec.ofNat 11 code) true),
     plainCommand (.encode 2 (BitVec.ofNat 11 code) true), plainCommand (.encode 3 (BitVec.ofNat 11 code) true),
     plainCommand .transmit]

/-- Assemble a line: its commands, or `none` for an operand out of range (R61). -/
def assemble (a : Asm) : Option (List Command) := if a.operandsOk then some a.commands else none

end Sys2Proof.Machine
end

