-- ==== Sys2Proof/Machine/Receiver.lean ====
section
/-! DEFINITION. What a receiver of the lines reads (40_frame_encoder.md R74). The ESC itself is outside the block
(00_scope.md R7); no step reads these (log 17). -/
namespace Sys2Proof.Machine

/-- The frame in one lane's 64 levels: `W[15-k]` is the level of slot `4k+1` (R74). -/
def recoverFrame (level : Slot → Bool) : BitVec 16 :=
  allBits.foldl (fun w k => w <<< 1 ||| (BitVec.ofBool (level (slotOf k 1))).setWidth 16) 0

/-- The frame in channel `ch`'s lane of the timeline (R74). -/
def receivedFrame (s : State) (ch : Channel) : BitVec 16 :=
  recoverFrame (fun i => (s.tlRead i).getLsbD ch.val)

/-- The level of line `ch` in slot `i` of the TRANSMIT whose events these are (R77). -/
def levelIn (events : List TraceRec) (i : Slot) (ch : Channel) : Bool :=
  events.any (fun r => decide (r = .pinWrite i ch true))

/-- The frame that line `ch` carried in the TRANSMIT whose events these are (R74, R77). -/
def sentFrame (events : List TraceRec) (ch : Channel) : BitVec 16 :=
  recoverFrame (fun i => levelIn events i ch)

end Sys2Proof.Machine
end

