-- ==== Sys2Proof/Safety.lean ====
section
/-! DEFINITION. What counts as a good run (70_reset_and_hazards.md R134), the host's duties that a claim may take as
premises (R135-R138, 60_exceptions.md R123), and the invariant that every step keeps (10_state.md R29, 40_frame_encoder.md
R74, 41_transmitter.md R78). -/
namespace Sys2Proof.Machine

/-- The opcode of a word, bits 3:0 (R52). -/
def opcodeOf (w : Word) : Nat := w.toNat % 16

/-- R58's conditions on a word, bit field by bit field, with R57's list of the fields each opcode does not use: said apart
from the decoder, so that the two can be compared. -/
abbrev illegalByFields (w : Word) : Prop :=
  opcodeOf w = 0 ∨ 7 ≤ opcodeOf w ∨ w.extractLsb' 21 11 ≠ 0 ∨
    (opcodeOf w = 1 ∧ w.extractLsb' 18 3 ≠ 0) ∨
    (opcodeOf w = 2 ∧ w.extractLsb' 4 17 ≠ 0) ∨
    ((opcodeOf w = 3 ∨ opcodeOf w = 4) ∧ w.extractLsb' 6 13 ≠ 0) ∨
    (opcodeOf w = 5 ∧ w.extractLsb' 4 16 ≠ 0) ∨
    (opcodeOf w = 6 ∧ (w.extractLsb' 4 14 ≠ 0 ∨ w.extractLsb' 19 2 ≠ 0))

/-- A run ends well iff `FAULTS = {}` (R134). -/
abbrev State.endsWell (s : State) : Prop := s.faults = []

/-- The premise of a claim that a channel sent a valid frame: `HAZ = {}` (R114). -/
abbrev State.noHazard (s : State) : Prop := s.haz = []

/-- Lane `ch` of slot `i`: bit `ch` of `TL[i]` (R28). -/
def State.lane (s : State) (ch : Channel) (i : Slot) : Bool := (s.tlRead i).getLsbD ch.val

/-- The lane of one channel is empty, or holds frames' pulses: quarter 0 high exactly when the channel is encoded, quarters
1 and 2 alike and low unless it is, quarter 3 low (R69, R74). -/
abbrev State.laneShaped (s : State) (ch : Channel) : Prop :=
  ∀ k : BitIx, s.lane ch (slotOf k 0) = s.encMask.getLsbD ch.val ∧ s.lane ch (slotOf k 1) = s.lane ch (slotOf k 2) ∧
    (s.lane ch (slotOf k 1) = true → s.encMask.getLsbD ch.val = true) ∧ s.lane ch (slotOf k 3) = false

/-- The invariant of the machine: the memory is canonical, bits 7..4 of every slot are 0 (R29 a), every lane has the
shape its `ENC_MASK` bit says (R74; so an empty `ENC_MASK` means an empty timeline, R29 b), the two sets are canonical,
and every line is low between commands (R27, R78). -/
abbrev State.Inv (s : State) : Prop :=
  Memory.wf s.tl ∧ (∀ i : Slot, (s.tlRead i).extractLsb' 4 4 = 0) ∧ (∀ ch : Channel, s.laneShaped ch) ∧
    s.haz.Pairwise (fun a b => a.key < b.key) ∧ s.faults.Pairwise (fun a b => a.key < b.key) ∧ s.pin = 0

/-- The command of an input, if it presents one that may complete. -/
def HostInput.command? : HostInput → Option Command
  | .command c => some c
  | .reset => none
  | .resetDuring _ _ => none

/-- The encode duties of the host for its next command (R135, R137): ENCODE and THROTTLE only of a channel not encoded since
the last TRANSMIT, BEEP_TICK only when none is. -/
def encodeDuty (s : State) (i : Instr) : Bool :=
  match i with
  | .encode ch _ _ => !s.encMask.getLsbD ch.val
  | .throttle ch _ _ => !s.encMask.getLsbD ch.val
  | .beepTick _ => s.encMask == 0
  | .transmit => true
  | .map _ _ _ => true
  | .setDir _ => true

/-- Does a command read `NOW` (R55)? -/
def readsNow : Instr → Bool
  | .map _ _ _ => true
  | .throttle _ _ _ => true
  | .beepTick _ => true
  | .encode _ _ _ => false
  | .transmit => false
  | .setDir _ => false

/-- Does a command read `THR` (R54)? -/
def readsThr : Instr → Bool
  | .map _ _ _ => true
  | .throttle _ _ _ => true
  | .beepTick _ => false
  | .encode _ _ _ => false
  | .transmit => false
  | .setDir _ => false

/-- Does a command read `DIR` (10_state.md R20, R24)? -/
def readsDir : Instr → Bool
  | .map _ _ _ => true
  | .throttle _ _ _ => true
  | .encode _ _ _ => false
  | .transmit => false
  | .beepTick _ => false
  | .setDir _ => false

/-- Does a command raise `THROTTLE_NAN` in a state (42_throttle_failsafe.md R88)? -/
def raisesThrottleNan (s : State) (i : Instr) : Bool := readsThr i && isNaN s.thr

/-- A binary32 magnitude short of overflow, in units of `2^-149`: at most 24 significant bits (00_scope.md R15,
30_encoding.md R54). -/
def F32Magnitude (m : Nat) : Prop := ∃ k e : Nat, k < 2 ^ 24 ∧ m = k * 2 ^ e

/-- `r` is `num / den` rounded to nearest, ties to even (R15): a binary32 magnitude, none is nearer, and where another one is
as near, `r`'s last bit, in the spacing of the two, is 0. Distances are taken `den` times. -/
def NearestEven (num den r : Nat) : Prop :=
  F32Magnitude r ∧
  (∀ m, F32Magnitude m → |(num : Int) - r * den| ≤ |(num : Int) - m * den|) ∧
  ∀ m, F32Magnitude m → m ≠ r → |(num : Int) - r * den| = |(num : Int) - m * den| →
    ∃ k e : Nat, r = k * 2 ^ e ∧ k % 2 = 0 ∧ (m = r + 2 ^ e ∨ r = m + 2 ^ e)

/-- The times of the commands that read `NOW`, in order. -/
def nowReadings : List HostInput → List Nat
  | [] => []
  | h :: rest =>
    match h.command? with
    | none => nowReadings rest
    | some c =>
      match decode c.cmd with
      | .ok i => if readsNow i then c.now.toNat :: nowReadings rest else nowReadings rest
      | .error _ => nowReadings rest

/-- The clock duty (R138), over a run shorter than the wrap of R140: `NOW` never goes backwards. -/
abbrev nowMonotone (hs : List HostInput) : Prop := (nowReadings hs).Pairwise (· ≤ ·)

/-- The channels of the THROTTLE commands among the inputs, in order. -/
def throttleChannels : List HostInput → List Channel
  | [] => []
  | h :: rest =>
    match h.command? with
    | none => throttleChannels rest
    | some c =>
      match decode c.cmd with
      | .ok (.throttle ch _ _) => ch :: throttleChannels rest
      | _ => throttleChannels rest

/-- The order duty (R136) for one control cycle: channels 0, 1, 2, then 3. -/
abbrev cycleInOrder (hs : List HostInput) : Prop := throttleChannels hs = [0, 1, 2, 3]

end Sys2Proof.Machine
end

