-- ==== Sys2Proof/Certificates/Slice0/Obligations.lean ====
section
/-! DEFINITION. The statements for the provers, listed in OBLIGATIONS.json. Each says which rule of spec/ it
formalises, or which inference of the spec ("the spec derives it") it checks. A premise `failingCheck s.cfg = none`
says that the configuration is well formed (R131); `State.Inv` is the invariant of Safety.lean, which `StepKeepsInv`
and `ResetMeetsInv` establish. -/
open Sys2Proof Sys2Proof.Machine

/-! ## Encoding -/

/-- Decoding the word of a command gives the command back, whatever its operands (R52, R53, R57). -/
def Obligations.DecodeOfEncode : Prop := ∀ i : Instr, decode (encode i) = .ok i

/-- Every legal word is the word of the command it decodes to: no bit is read two ways or ignored (R52, R57). -/
def Obligations.EncodeOfDecode : Prop := ∀ (w : Word) (i : Instr), decode w = .ok i → encode i = w

/-- The match and mask table, whole: a word matches a row exactly when it decodes to a command of that row, no two rows
match one word, and a word that matches no row is illegal (R57). -/
def Obligations.OpcodeTableDecodes : Prop :=
  (∀ (w : Word), ∀ r ∈ opcodeTable, r.accepts w = true ↔ ∃ i, decode w = .ok i ∧ i.mnemonic = r.mnemonic) ∧
  (∀ (w : Word), ∀ r ∈ opcodeTable, ∀ q ∈ opcodeTable, r.accepts w = true → q.accepts w = true → r = q) ∧
  ∀ w : Word, (∀ r ∈ opcodeTable, r.accepts w = false) → ∃ r, decode w = .error r

/-- The example words decode to the commands they stand for (R63; the spec derives it from R52 and R57). -/
def Obligations.ExampleWordsDecode : Prop :=
  decode 0x00001901 = .ok (.encode 0 100 false) ∧ decode 0x0003FFF1 = .ok (.encode 3 2047 true) ∧
  decode 0x00000002 = .ok .transmit ∧ decode 0x00180023 = .ok (.map 2 true true) ∧
  decode 0x00000034 = .ok (.throttle 3 false false) ∧ decode 0x00100034 = .ok (.throttle 3 false true) ∧
  decode 0x00100005 = .ok (.beepTick true) ∧ decode 0x00040006 = .ok (.setDir .reverse)

/-- The decoder refuses a word exactly when it is illegal by its fields (R57, R58). -/
def Obligations.IllegalWordIff : Prop := ∀ w : Word, (∃ r, decode w = .error r) ↔ illegalByFields w

/-! ## Steps -/

/-- A word that is illegal by its fields changes no hardware state but `RESP`, which becomes 0, emits nothing, and records
`ILLEGAL_COMMAND` with the word, whatever the buses hold (R58, R112, R116). -/
def Obligations.IllegalWordStep : Prop :=
  ∀ (s : State) (c : Command) (rest : List HostInput), failingCheck s.cfg = none →
    s.host = .command c :: rest → illegalByFields c.cmd →
    ∃ t, step s = .next t ∧
      t = { s with resp := 0, faults := t.faults, cmd := c.cmd, thr := c.thr, now := c.now, host := rest } ∧
      ∀ f, f ∈ t.faults ↔ f ∈ s.faults ∨ f = .illegalCommand c.cmd

/-- A step with a presented legal word is the execution of its command, the word and the buses on the signals and the
input taken from the host's list (R51; the list is the model's own, log 1). -/
def Obligations.StepRunsDecoded : Prop :=
  ∀ (s : State) (c : Command) (rest : List HostInput) (i : Instr), failingCheck s.cfg = none →
    s.host = .command c :: rest → decode c.cmd = .ok i →
    step s = exec i { s with cmd := c.cmd, thr := c.thr, now := c.now, host := rest }

/-- The word of any command, placed as the host's next input with the buses as they stand, runs as that command at the very
next step (R51, R57; that a command is placed in a list of inputs is the model's own, log 1). -/
def Obligations.PlacedWordRuns : Prop :=
  ∀ (s : State) (i : Instr), failingCheck s.cfg = none →
    step (s.withFetchWord 32 (encode i).toNat) = exec i { s with cmd := encode i }

/-- With no input from the host the block keeps all state (R125; that a step is then taken at all is log 15). -/
def Obligations.IdleStepKeepsState : Prop :=
  ∀ s : State, failingCheck s.cfg = none → s.host = [] → step s = .next s

/-- RESET sets every piece of state to its reset value, keeps the configuration and begins a new run (R35, R128). -/
def Obligations.ResetStep : Prop :=
  ∀ (s : State) (rest : List HostInput), failingCheck s.cfg = none → s.host = .reset :: rest →
    ∃ t, step s = .next t ∧ (∀ i : Slot, t.tlRead i = 0) ∧ t.dir = .forward ∧
      t.fsTime = BitVec.ofNat 32 s.cfg.fsTimeReset ∧ t.beepTime = 0 ∧ t.pin = 0 ∧ t.resp = 0 ∧ t.encMask = 0 ∧
      t.haz = [] ∧ t.faults = [] ∧ t.cfg = s.cfg ∧ t.trace = [] ∧ t.host = rest

/-- RESET during a TRANSMIT: the state is the reset state, and the run that ends keeps the events sent before the reset,
a first part of the TRANSMIT's events with no `TXDONE` (R129). The model's own: that the reset falls between two events
(log 8), the field `past` (log 7), that RESET leaves the signals at the aborted command's values (log 6), and the list of
inputs (log 1). -/
def Obligations.ResetDuringTransmit : Prop :=
  ∀ (s : State) (c : Command) (n : Nat) (rest : List HostInput), failingCheck s.cfg = none →
    s.host = .resetDuring c n :: rest → decode c.cmd = .ok .transmit →
    step s = .next { State.resetWith s.cfg with
      past := s.past ++ [s.trace ++ (transmitEvents s).take n]
      cmd := c.cmd, thr := c.thr, now := c.now, host := rest }

/-- RESET during any command: the reset state, and of the command only a first part of its output events; of an illegal
word, none at all (R116, R129). The model's own: that RESET falls after a count of emitted events (log 8), that the ended
run's trace is kept in `past` (log 7), that RESET leaves the signals at the aborted command's values (log 6), and the list of
inputs (log 1). -/
def Obligations.ResetDuringCommand : Prop :=
  (∀ (s : State) (c : Command) (n : Nat) (rest : List HostInput) (i : Instr), failingCheck s.cfg = none →
    s.host = .resetDuring c n :: rest → decode c.cmd = .ok i →
    ∃ done new, exec i { s with cmd := c.cmd, thr := c.thr, now := c.now, host := rest } = .next done ∧
      done.trace = s.trace ++ new ∧
      step s = .next { State.resetWith s.cfg with
        past := s.past ++ [s.trace ++ (new.filter TraceRec.isPinWrite).take n]
        cmd := c.cmd, thr := c.thr, now := c.now, host := rest }) ∧
  ∀ (s : State) (c : Command) (n : Nat) (rest : List HostInput), failingCheck s.cfg = none →
    s.host = .resetDuring c n :: rest → illegalByFields c.cmd →
    step s = .next { State.resetWith s.cfg with
      past := s.past ++ [s.trace], cmd := c.cmd, thr := c.thr, now := c.now, host := rest }

/-- A configuration that fails a check is refused by that check's name, whatever the host does (R113, R131). -/
def Obligations.IllFormedCfgRefused : Prop :=
  ∀ (s : State) (k : CfgCheck), failingCheck s.cfg = some k → step s = .refused (.illFormedConfig k)

/-- Under a well-formed configuration every step has a next state: nothing faults and nothing is refused, be it a legal
command (R110), an illegal word or a NaN throttle, which record a fault and go on (R112; DEDUCED, log 10), a RESET (R128,
R129), or no input, an idle block that keeps its state (R125; that this is a step is the model's choice, log 15). -/
def Obligations.WellFormedCfgSteps : Prop :=
  ∀ s : State, failingCheck s.cfg = none → ∃ t, step s = .next t

/-- A configuration is well formed exactly when R131's checks hold, with R132's range of `IDLE_OFFSET` (the spec derives that
range). What "roughly" allows in `CFG_TIMING` is an open tolerance below `T_BIT(FAST)`, and a bit lasts some time (log 3). -/
def Obligations.CfgWellFormedIff : Prop :=
  ∀ c : Cfg, failingCheck c = none ↔
    (∃ p, c.profiles = [p]) ∧
    (c.mapFn = .reference → (c.bidir = true → 0 ≤ c.idleOffset ∧ c.idleOffset ≤ 999) ∧
      (c.bidir = false → 1 ≤ c.idleOffset ∧ c.idleOffset ≤ 500)) ∧
    (c.mapFn = .supplied → ∀ d, rangeLo c.bidir d c.idleOffset ≤ rangeHi c.bidir d) ∧
    c.beepTimeoutUs < 2 ^ 32 ∧
    (c.beepCode1 ≤ 2047 ∧ c.beepCode2 ≤ 2047 ∧ c.beepCode3 ≤ 2047 ∧ c.beepCode4 ≤ 2047) ∧
    (c.mapFn = .supplied → ∀ d, MeetsR90 c d) ∧
    c.fsTimeReset < 2 ^ 32 ∧
    ((∀ p, 4 * slotTime (timingOf c) p = bitTime (timingOf c) p) ∧ (timingOf c).nopSet < (timingOf c).nopReset ∧
      0 < (timingOf c).bitFast ∧
      |((timingOf c).bitSlow : Int) - 2 * (timingOf c).bitFast| ≤ slowTolerance (timingOf c).bitFast)

/-! ## Reset and the invariant -/

/-- The reset state holds R35's values under every configuration, and the machine starts in it. -/
def Obligations.ResetValues : Prop :=
  State.reset = State.resetWith Config.cfg ∧
  ∀ c : Cfg, (∀ i : Slot, (State.resetWith c).tlRead i = 0) ∧ (State.resetWith c).dir = .forward ∧
    (State.resetWith c).fsTime = BitVec.ofNat 32 c.fsTimeReset ∧ (State.resetWith c).beepTime = 0 ∧
    (State.resetWith c).pin = 0 ∧ (State.resetWith c).resp = 0 ∧ (State.resetWith c).encMask = 0 ∧
    (State.resetWith c).haz = [] ∧ (State.resetWith c).faults = []

/-- The reset state meets the invariant, under every configuration. -/
def Obligations.ResetMeetsInv : Prop := ∀ c : Cfg, (State.resetWith c).Inv

/-- Every step keeps the invariant: canonical memory, bits 7..4 of every slot 0, every lane shaped as its `ENC_MASK` bit
says, canonical sets, every line low (R27, R29, R74, R78; the spec derives the last three). -/
def Obligations.StepKeepsInv : Prop := ∀ s t : State, s.Inv → step s = .next t → t.Inv

/-- When no channel is encoded since the last TRANSMIT, the timeline is all zero (R29 b), in every state that meets
the invariant (the spec derives it). -/
def Obligations.InvEmptyTimeline : Prop := ∀ s : State, s.Inv → s.encMask = 0 → s.tl = []

/-! ## Frames and ENCODE -/

/-- The 12-bit field and its checksum (R64, R65). -/
def Obligations.FieldAndChecksum : Prop :=
  (∀ (value : Value) (tlm : Bool),
    frameField value tlm = (value.setWidth 12 <<< 1) ||| (BitVec.ofBool tlm).setWidth 12 ∧
    (frameField value tlm).extractLsb' 1 11 = value ∧ (frameField value tlm).getLsbD 0 = tlm) ∧
  ∀ f : BitVec 12, nibbleXor f = f.extractLsb' 0 4 ^^^ f.extractLsb' 4 4 ^^^ f.extractLsb' 8 4 ∧
    (nibbleXor f).setWidth 12 = (f ^^^ (f >>> 4) ^^^ (f >>> 8)) &&& 0xF

/-- A frame is valid exactly when its low nibble is the XOR of the other three; every frame built is valid and carries
exactly the value and flag it was built from (R67; the spec derives the second sentence). -/
def Obligations.FrameRoundTrip : Prop :=
  (∀ w : BitVec 16, frameValid w = true ↔
    w.extractLsb' 0 4 = w.extractLsb' 4 4 ^^^ w.extractLsb' 8 4 ^^^ w.extractLsb' 12 4) ∧
  (∀ w : BitVec 16, frameValue w = w.extractLsb' 5 11 ∧ frameTlm w = w.getLsbD 4) ∧
  ∀ (value : Value) (tlm : Bool), frameValid (frame value tlm) = true ∧ frameValue (frame value tlm) = value ∧
    frameTlm (frame value tlm) = tlm

/-- The encoder's OR write sets one bit of one slot, leaves every other bit of every slot, and clears none, and two such
writes give the same slots in either order (R38). -/
def Obligations.OrWriteSetsOneBit : Prop :=
  (∀ (s : State) (i j : Slot) (ch : Channel) (b : Fin 8),
    ((s.tlOr i ch).tlRead j).getLsbD b.val =
      ((s.tlRead j).getLsbD b.val || (decide (j = i) && decide (b.val = ch.val)))) ∧
  ∀ (s : State) (i i' j : Slot) (ch ch' : Channel),
    ((s.tlOr i ch).tlOr i' ch').tlRead j = ((s.tlOr i' ch').tlOr i ch).tlRead j

/-- ENCODE, whole: for each protocol bit `k` of the frame, its channel's lane gains slot `4k`, and slots `4k+1` and `4k+2`
when the bit is 1, and nothing else; the other lanes and bits 7..4 are as they were; `ENC_MASK` gains the channel; a channel
encoded already adds `DOUBLE_ENCODE`; `RESP` is 0; all else is unchanged (R66, R68, R70, R71). -/
def Obligations.EncodeResult : Prop :=
  ∀ (ch : Channel) (value : Value) (tlm : Bool) (s : State),
    ∃ t, exec (.encode ch value tlm) s = .next t ∧
      t = { s with tl := t.tl, encMask := t.encMask, haz := t.haz, resp := 0 } ∧
      (∀ k : BitIx,
        t.lane ch (slotOf k 0) = true ∧
        t.lane ch (slotOf k 1) = (s.lane ch (slotOf k 1) || (frame value tlm).getLsbD (15 - k.val)) ∧
        t.lane ch (slotOf k 2) = (s.lane ch (slotOf k 2) || (frame value tlm).getLsbD (15 - k.val)) ∧
        t.lane ch (slotOf k 3) = s.lane ch (slotOf k 3)) ∧
      (∀ (ch' : Channel) (i : Slot), ch' ≠ ch → t.lane ch' i = s.lane ch' i) ∧
      (∀ i : Slot, (t.tlRead i).extractLsb' 4 4 = (s.tlRead i).extractLsb' 4 4) ∧
      (∀ ch' : Channel, t.encMask.getLsbD ch'.val = (s.encMask.getLsbD ch'.val || decide (ch' = ch))) ∧
      (∀ h, h ∈ t.haz ↔ h ∈ s.haz ∨ (s.encMask.getLsbD ch.val = true ∧ h = .doubleEncode ch))

/-- After rendering a frame into an empty timeline, the channel's column reads as R69 says, and slot 63 is low (the spec
derives it from R68). -/
def Obligations.RenderIntoEmpty : Prop :=
  ∀ (s : State) (ch : Channel) (w : BitVec 16), (∀ i : Slot, s.tlRead i = 0) →
    (∀ k : BitIx, (renderFrame s ch w).lane ch (slotOf k 0) = true ∧
      (renderFrame s ch w).lane ch (slotOf k 1) = w.getLsbD (15 - k.val) ∧
      (renderFrame s ch w).lane ch (slotOf k 2) = w.getLsbD (15 - k.val) ∧
      (renderFrame s ch w).lane ch (slotOf k 3) = false) ∧
    (renderFrame s ch w).lane ch 63 = false

/-- Encoding the four channels gives the same state in every order, and an encode of one channel reads and writes only
its own lane: in two states that agree on a lane, encoding another channel, whatever its value, leaves them agreeing on it,
and encoding that channel's own frame does too (R72; the spec derives it). -/
def Obligations.LanesIndependent : Prop :=
  (∀ (s : State) (value : Channel → Value) (tlm : Channel → Bool) (l : List Channel), s.Inv → l.Perm allChannels →
    l.foldl (fun s' ch => encodeBody ch (value ch) (tlm ch) s') s =
      allChannels.foldl (fun s' ch => encodeBody ch (value ch) (tlm ch) s') s) ∧
  (∀ (s : State) (ch other : Channel) (v : Value) (tlm : Bool) (i : Slot), ch ≠ other →
    (encodeBody other v tlm s).lane ch i = s.lane ch i) ∧
  ∀ (s u : State) (ch : Channel) (v : Value) (tlm : Bool), (∀ i, s.lane ch i = u.lane ch i) →
    ∀ i, (encodeBody ch v tlm s).lane ch i = (encodeBody ch v tlm u).lane ch i

/-- Rendering two frames on one lane with no TRANSMIT between leaves the rendering of their OR, exactly (R73; the spec
derives it). -/
def Obligations.DoubleEncodeIsOr : Prop :=
  ∀ (s : State) (ch : Channel) (v w : BitVec 16), s.Inv →
    renderFrame (renderFrame s ch v) ch w = renderFrame s ch (v ||| w)

/-- A receiver that reads a lane with exactly one frame rendered since the last TRANSMIT recovers the frame; an encoded
channel's slots `4k` are 1 and slots `4k+3` are 0, and an unencoded channel's slots are all 0 (R74; the spec derives it). -/
def Obligations.ReceiverRecoversFrame : Prop :=
  ∀ s : State, s.Inv →
    (∀ (ch : Channel) (value : Value) (tlm : Bool), s.encMask.getLsbD ch.val = false →
      receivedFrame (encodeBody ch value tlm s) ch = frame value tlm) ∧
    (∀ (ch : Channel) (k : BitIx), s.encMask.getLsbD ch.val = true →
      s.lane ch (slotOf k 0) = true ∧ s.lane ch (slotOf k 3) = false) ∧
    (∀ (ch : Channel) (i : Slot), s.encMask.getLsbD ch.val = false → s.lane ch i = false)

/-! ## TRANSMIT -/

/-- TRANSMIT, whole: every slot is cleared, each line ends at its bit of slot 63, the trace gains the 256 events slot by
slot and channel by channel, then `TXDONE` with the mask, `ENC_MASK` and `RESP` become 0, all else is unchanged
(R39, R49, R75, R76). -/
def Obligations.TransmitResult : Prop :=
  ∀ s : State, ∃ t, exec .transmit s = .next t ∧
    t = { s with tl := t.tl, pin := t.pin, trace := t.trace, encMask := 0, resp := 0 } ∧
    (∀ i : Slot, t.tlRead i = 0) ∧
    (∀ ch : Channel, t.line ch = s.lane ch 63) ∧
    t.trace = s.trace ++
      (List.finRange 64).flatMap (fun i =>
        (List.finRange 4).map (fun ch => TraceRec.pinWrite i ch ((s.tlRead i).getLsbD ch.val))) ++
      [.txDone s.encMask]

/-- After every TRANSMIT every slot is 0, `ENC_MASK` is 0 and every line is low (R78), in every state that meets the
invariant (the spec derives it). -/
def Obligations.AfterTransmit : Prop :=
  ∀ s : State, s.Inv → ∃ t, exec .transmit s = .next t ∧ (∀ i : Slot, t.tlRead i = 0) ∧ t.encMask = 0 ∧ t.pin = 0 ∧
    ∀ ch : Channel, t.line ch = false

/-- A TRANSMIT on an all-zero timeline emits 256 events with level 0 and changes no state except `RESP` (R79); the
record `TXDONE(0000)` follows the events (R76). The spec derives R79. -/
def Obligations.TransmitEmptyTimeline : Prop :=
  ∀ s : State, s.Inv → (∀ i : Slot, s.tlRead i = 0) →
    ∃ t events, exec .transmit s = .next t ∧ t = { s with resp := 0, trace := s.trace ++ events ++ [.txDone 0] } ∧
      events.length = 256 ∧ ∀ e ∈ events, ∃ i ch, e = .pinWrite i ch false

/-- End to end: encode a channel that is not encoded, then transmit. The line of that channel carries exactly the frame
in every slot, a valid one, with the value and the flag of the command; the other lines carry what their lanes held
(R66, R67, R70, R74, R75, R77; the spec derives R74 and R77). -/
def Obligations.EncodeThenTransmit : Prop :=
  ∀ (s : State) (ch : Channel) (value : Value) (tlm : Bool), s.Inv → s.encMask.getLsbD ch.val = false →
    ∃ t u events, exec (.encode ch value tlm) s = .next t ∧ exec .transmit t = .next u ∧
      u.trace = s.trace ++ events ++ [.txDone t.encMask] ∧ u.haz = s.haz ∧
      (∀ k : BitIx, levelIn events (slotOf k 0) ch = true ∧
        levelIn events (slotOf k 1) ch = (frame value tlm).getLsbD (15 - k.val) ∧
        levelIn events (slotOf k 2) ch = (frame value tlm).getLsbD (15 - k.val) ∧
        levelIn events (slotOf k 3) ch = false) ∧
      sentFrame events ch = frame value tlm ∧ frameValid (sentFrame events ch) = true ∧
      frameValue (sentFrame events ch) = value ∧ frameTlm (sentFrame events ch) = tlm ∧
      ∀ other : Channel, other ≠ ch → sentFrame events other = receivedFrame s other

/-! ## Direction, throttle, failsafe -/

/-- SET_DIR sets `DIR` and `RESP`, and nothing else (R87). -/
def Obligations.SetDirResult : Prop :=
  ∀ (d : Direction) (s : State), exec (.setDir d) s = .next { s with dir := d, resp := 0 }

/-- The clamp of a throttle that is not a NaN, in R88's order: a negative one, `-inf` included, becomes `+0.0`; one above
`CLAMP_HI`, `+inf` included, becomes `CLAMP_HI`; every other, `-0.0` included, stays. So the result is in `[0.0, CLAMP_HI]`,
the nearest of its values. -/
def Obligations.ClampRule : Prop :=
  ∀ t : Word, isNaN t = false →
    (f32Lt t 0 = true → clampThr t = 0) ∧ (f32Lt clampHi t = true → clampThr t = clampHi) ∧
    (f32Lt t 0 = false → f32Lt clampHi t = false → clampThr t = t) ∧
    clamped (clampThr t) = true ∧ f32Place (clampThr t) = max 0 (min (f32Place clampHi) (f32Place t)) ∧
    (clamped t = true → clampThr t = t)

/-- `MAP_FN` of a well-formed configuration meets R90 in both directions: endpoints, bounds, monotonicity; for the reference
map this is R91's claim over R132's whole range of `IDLE_OFFSET`. -/
def Obligations.MapFnMeetsR90 : Prop := ∀ (c : Cfg) (d : Direction), failingCheck c = none → MeetsR90 c d

/-- The reference `MAP_FN` between its endpoints: `lo` plus the whole part of the product of the throttle and `S`, rounded to
nearest, ties to even, with R91's `lo` and `S`; and the model's rounding is that rounding for every quotient (R15, R91). A
clamped throttle and `S` are at least 0, so truncation is the floor. The scale is the spec's own default (R91). -/
def Obligations.ReferenceMapRounds : Prop :=
  (∀ num den : Nat, 0 < den → NearestEven num den (roundRatio num den)) ∧
  ∀ (c : Cfg) (d : Direction) (t : Word), failingCheck c = none → c.mapFn = .reference → clamped t = true →
    ∃ (r : Nat) (lo S : Int),
      lo = (if c.bidir then (if d = .forward then 48 else 1048) + c.idleOffset else 48 + 2 * c.idleOffset) ∧
      S = (if c.bidir then 1000 - c.idleOffset else 2001 - 2 * c.idleOffset) ∧ 0 < S ∧
      NearestEven ((F32.ofWord t).mag * S.toNat) 1 r ∧ (mapFn c d t : Int) = lo + (r / 2 ^ 149 : Nat)

/-- No command but MAP and THROTTLE reads `DIR`, and with `BIDIR = off` none does, whatever `MAP_FN` is: the next state is the
same but for the direction it holds (R20, R24, R87). SET_DIR itself overwrites it. -/
def Obligations.DirReadOnlyWhenBidirectional : Prop :=
  ∀ (i : Instr) (s : State), s.cfg.bidir = false ∨ readsDir i = false →
    ∃ t, exec i s = .next t ∧
      ∀ d, ((∀ e, i ≠ .setDir e) → exec i { s with dir := d } = .next { t with dir := d }) ∧
        ((∃ e, i = .setDir e) → exec i { s with dir := d } = .next t)

/-- MAP, whole, when `THR` is not a NaN: `FS_TIME` as the latch leaves it, `RESP` = `{00, st, 0, value}` with the value 0 on
the ground or when cut off and the base mapping of the clamped throttle otherwise; all else unchanged (R60, R95, R96). -/
def Obligations.MapResult : Prop :=
  ∀ (ch : Channel) (gnd fs : Bool) (s : State), isNaN s.thr = false →
    ∃ t, exec (.map ch gnd fs) s = .next t ∧ t = { s with fsTime := t.fsTime, resp := t.resp } ∧
      t.fsTime = (failsafeLatch fs s.now s.fsTime).fsTime ∧
      t.resp.extractLsb' 0 11 =
        (if gnd = true ∨ (failsafeLatch fs s.now s.fsTime).cut = true then 0
         else BitVec.ofNat 11 (mapFn s.cfg s.dir (clampThr s.thr))) ∧
      t.resp.extractLsb' 11 1 = 0 ∧ t.resp.extractLsb' 12 2 = (failsafeLatch fs s.now s.fsTime).st.code ∧
      t.resp.extractLsb' 14 2 = 0

/-- The value a MAP gives is 0 or in `[lo, hi]` of R89, under a well-formed configuration (R89, R90, R95). -/
def Obligations.MapValueInRange : Prop :=
  ∀ (ch : Channel) (gnd fs : Bool) (s : State), failingCheck s.cfg = none → isNaN s.thr = false →
    ∃ t, exec (.map ch gnd fs) s = .next t ∧
      ((t.resp.extractLsb' 0 11).toNat = 0 ∨
        (rangeLo s.cfg.bidir s.dir s.cfg.idleOffset ≤ ((t.resp.extractLsb' 0 11).toNat : Int) ∧
          ((t.resp.extractLsb' 0 11).toNat : Int) ≤ rangeHi s.cfg.bidir s.dir))

/-- With the reference map, off the ground and not cut off, the value of MAP does not fall when the throttle rises, in one
direction (R98; the spec derives it). -/
def Obligations.MapMonotone : Prop :=
  ∀ (ch : Channel) (fs : Bool) (s : State) (a b : Word), failingCheck s.cfg = none → s.cfg.mapFn = .reference →
    isNaN a = false → isNaN b = false → f32Lt b a = false → (failsafeLatch fs s.now s.fsTime).cut = false →
    ∃ t u, exec (.map ch false fs) { s with thr := a } = .next t ∧ exec (.map ch false fs) { s with thr := b } = .next u ∧
      (t.resp.extractLsb' 0 11).toNat ≤ (u.resp.extractLsb' 0 11).toNat

/-- A MAP or THROTTLE with a NaN on `THR` records `THROTTLE_NAN` with the pattern and has no other effect: the latch, the
timeline, the lines and `RESP` are as they were (R88, R96, R97, R112). -/
def Obligations.NanRecordsFault : Prop :=
  ∀ (ch : Channel) (gnd fs : Bool) (s : State) (i : Instr), isNaN s.thr = true →
    i = .map ch gnd fs ∨ i = .throttle ch gnd fs →
    ∃ t, exec i s = .next t ∧ t = { s with faults := t.faults } ∧
      ∀ f, f ∈ t.faults ↔ f ∈ s.faults ∨ f = .throttleNan s.thr

/-- The failsafe latch: cleared without failsafe; the onset latched and never cut off at once; an onset at `NOW` = 0 not
timed; a timed failsafe cut off exactly after more than 100000 µs (R92). -/
def Obligations.LatchCases : Prop :=
  ∀ (now t : Word),
    failsafeLatch false now t = ⟨0, false, .clear⟩ ∧
    (now ≠ 0 → failsafeLatch true now 0 = ⟨now, false, .grace⟩) ∧
    failsafeLatch true 0 0 = ⟨0, false, .untimed⟩ ∧
    (t ≠ 0 → (now.toNat + 2 ^ 32 - t.toNat) % 2 ^ 32 ≤ 100000 → failsafeLatch true now t = ⟨t, false, .grace⟩) ∧
    (t ≠ 0 → 100000 < (now.toNat + 2 ^ 32 - t.toNat) % 2 ^ 32 → failsafeLatch true now t = ⟨t, true, .cutoff⟩)

/-- Ground gives value 0 for every throttle that is not a NaN, in every failsafe state, for MAP and for THROTTLE (R99;
the spec derives it). -/
def Obligations.GroundGivesZero : Prop :=
  ∀ (ch : Channel) (fs : Bool) (s : State) (i : Instr), isNaN s.thr = false →
    i = .map ch true fs ∨ i = .throttle ch true fs →
    ∃ t, exec i s = .next t ∧ t.resp.extractLsb' 0 11 = 0

/-- A MAP or THROTTLE without failsafe sets `FS_TIME` to 0 and, off the ground, gives the normal mapping, whatever the latch
held; the next failsafe is then timed from its own onset (R92, R100; the spec derives R100). -/
def Obligations.ClearRestoresMapping : Prop :=
  ∀ (ch : Channel) (s : State) (i : Instr), isNaN s.thr = false → i = .map ch false false ∨ i = .throttle ch false false →
    ∃ t, exec i s = .next t ∧ t.fsTime = 0 ∧
      t.resp.extractLsb' 0 11 = BitVec.ofNat 11 (mapFn s.cfg s.dir (clampThr s.thr)) ∧
      ∀ (ch' : Channel) (now thr : Word), now ≠ 0 → isNaN thr = false →
        ∃ u, exec (.map ch' false true) { t with now := now, thr := thr } = .next u ∧ u.fsTime = now

/-- With an onset latched at `T ≠ 0`, the value is the base mapping of the command's own throttle while at most 100000
µs have elapsed and 0 after that, for MAP and for THROTTLE off the ground; the onset stays latched (R94, R101; the
spec derives R101). -/
def Obligations.FailsafeCutoff : Prop :=
  ∀ (ch : Channel) (s : State) (i : Instr), isNaN s.thr = false → s.fsTime ≠ 0 →
    i = .map ch false true ∨ i = .throttle ch false true →
    ∃ t, exec i s = .next t ∧ t.fsTime = s.fsTime ∧
      t.resp.extractLsb' 0 11 =
        (if (elapsed s.now s.fsTime).toNat ≤ 100000 then BitVec.ofNat 11 (mapFn s.cfg s.dir (clampThr s.thr)) else 0)

/-- THROTTLE, when `THR` is not a NaN, is MAP, then ENCODE of MAP's value with telemetry 0, then on channel 3 TRANSMIT, with
MAP's response; it leaves the direction, the beep timer, the faults and the configuration alone (R97). -/
def Obligations.ThrottleIsMapEncodeTransmit : Prop :=
  ∀ (ch : Channel) (gnd fs : Bool) (s : State), isNaN s.thr = false →
    ∃ m e t, exec (.map ch gnd fs) s = .next m ∧ exec (.encode ch (m.resp.extractLsb' 0 11) false) m = .next e ∧
      exec (.throttle ch gnd fs) s = .next t ∧
      (ch ≠ 3 → t = { e with resp := m.resp }) ∧
      (ch = 3 → ∃ x, exec .transmit e = .next x ∧ t = { x with resp := m.resp }) ∧
      t.cfg = s.cfg ∧ t.dir = s.dir ∧ t.beepTime = s.beepTime ∧ t.faults = s.faults ∧ t.past = s.past ∧
      t.cmd = s.cmd ∧ t.thr = s.thr ∧ t.now = s.now ∧ t.host = s.host

/-- One channel-3 THROTTLE sends what the lanes hold: from a state that meets the invariant with channel 3 not
encoded, line 3 carries the frame of the value in `RESP` with telemetry 0, and every other line its lane's frame (R74,
R97; the spec derives R74). -/
def Obligations.ThrottleThreeSends : Prop :=
  ∀ (gnd fs : Bool) (s : State), s.Inv → s.encMask.getLsbD 3 = false → isNaN s.thr = false →
    ∃ t events, exec (.throttle 3 gnd fs) s = .next t ∧
      t.trace = s.trace ++ events ++ [.txDone (s.encMask ||| 8)] ∧ t.tl = [] ∧ t.encMask = 0 ∧ t.pin = 0 ∧
      sentFrame events 3 = frame (t.resp.extractLsb' 0 11) false ∧
      ∀ other : Channel, other ≠ 3 → sentFrame events other = receivedFrame s other

/-! ## The beep sequencer -/

/-- The window table, with the order 1, 3, 2, 4 and half-open windows (R102). -/
def Obligations.BeepWindowTable : Prop :=
  ∀ (c : Cfg) (p : Nat), p < 2000000 →
    (p < 250000 → windowCode c p = some (BitVec.ofNat 11 c.beepCode1)) ∧
    (250000 ≤ p → p < 500000 → windowCode c p = some (BitVec.ofNat 11 c.beepCode3)) ∧
    (500000 ≤ p → p < 750000 → windowCode c p = some (BitVec.ofNat 11 c.beepCode2)) ∧
    (750000 ≤ p → p < 1000000 → windowCode c p = some (BitVec.ofNat 11 c.beepCode4)) ∧
    (1000000 ≤ p → windowCode c p = none)

/-- A tick without failsafe: `BEEP_TIME` becomes 0, INACTIVE, nothing is sent (R60, R104, R105). -/
def Obligations.BeepTickInactive : Prop :=
  ∀ s : State, exec (.beepTick false) s = .next { s with beepTime := 0, resp := 0 }

/-- A tick with failsafe that sends nothing: with `T` the onset, latched now if none was, it is WAITING while the elapsed
time is at most the timeout, and BEEPING in the silent second; `BEEP_TIME` and `RESP` change and nothing else
(R60, R104, R105). -/
def Obligations.BeepTickSilent : Prop :=
  ∀ (s : State) (T : Word) (e : Nat), T = (if s.beepTime = 0 then s.now else s.beepTime) → e = (elapsed s.now T).toNat →
    (e ≤ s.cfg.beepTimeoutUs → exec (.beepTick true) s = .next { s with beepTime := T, resp := 0x2000 }) ∧
    (s.cfg.beepTimeoutUs < e → 1000000 ≤ e % 2000000 →
      exec (.beepTick true) s = .next { s with beepTime := T, resp := 0x4000 })

/-- A tick inside a window is four ENCODEs of the window's code with telemetry set, on channels 0 to 3, then TRANSMIT, with
`BEEP_TIME` the onset and the response `{1, BEEPING, 00, code}` (R102, R103, R104). -/
def Obligations.BeepTickInWindow : Prop :=
  ∀ (s : State) (code : Value), s.cfg.beepTimeoutUs < (elapsed s.now s.beepTime).toNat → s.beepTime ≠ 0 →
    windowCode s.cfg ((elapsed s.now s.beepTime).toNat % 2000000) = some code →
    ∃ e0 e1 e2 e3 x t, exec (.encode 0 code true) s = .next e0 ∧ exec (.encode 1 code true) e0 = .next e1 ∧
      exec (.encode 2 code true) e1 = .next e2 ∧ exec (.encode 3 code true) e2 = .next e3 ∧
      exec .transmit e3 = .next x ∧ exec (.beepTick true) s = .next t ∧ t = { x with resp := t.resp } ∧
      t.resp.extractLsb' 0 11 = code ∧ t.resp.extractLsb' 11 2 = 0 ∧ t.resp.extractLsb' 13 2 = 2 ∧
      t.resp.extractLsb' 15 1 = 1

/-- A tick in a window, issued as R137 wants, sends the beep frame of the window's code on all four lines and leaves the
timeline empty and no new hazard (R102, R103, R104, R108, R137). -/
def Obligations.BeepSendsOnAllLines : Prop :=
  ∀ (s : State) (code : Value), s.Inv → s.encMask = 0 → s.beepTime ≠ 0 →
    s.cfg.beepTimeoutUs < (elapsed s.now s.beepTime).toNat →
    windowCode s.cfg ((elapsed s.now s.beepTime).toNat % 2000000) = some code →
    ∃ t events, exec (.beepTick true) s = .next t ∧ t.trace = s.trace ++ events ++ [.txDone 15] ∧
      (∀ ch : Channel, sentFrame events ch = frame code true) ∧ t.haz = s.haz ∧ t.tl = [] ∧ t.encMask = 0 ∧
      t.beepTime = s.beepTime

/-- By the time a tick is BEEPING, the failsafe latch cuts off, when `FS_TIME` latched its onset no later than `BEEP_TIME`
did and the timeout is at least 100000 µs (R109; the spec derives it). -/
def Obligations.CutoffWhileBeeping : Prop :=
  ∀ s : State, s.fsTime ≠ 0 → s.beepTime ≠ 0 → 100000 ≤ s.cfg.beepTimeoutUs →
    (elapsed s.now s.beepTime).toNat ≤ (elapsed s.now s.fsTime).toNat →
    s.cfg.beepTimeoutUs < (elapsed s.now s.beepTime).toNat →
    (failsafeLatch true s.now s.fsTime).st = .cutoff ∧
      ∀ (ch : Channel) (gnd : Bool), isNaN s.thr = false →
        ∃ t, exec (.map ch gnd true) s = .next t ∧ t.resp.extractLsb' 0 11 = 0

/-! ## Whole-machine rules -/

/-- R20's column "written by", over all commands: each piece of state is changed only by the commands it names, and no
command changes the configuration (R30), the buses, the host's inputs or the earlier runs' traces. -/
def Obligations.WhoWritesWhat : Prop :=
  ∀ (i : Instr) (s t : State), exec i s = .next t →
    (t.cfg = s.cfg ∧ t.past = s.past ∧ t.cmd = s.cmd ∧ t.thr = s.thr ∧ t.now = s.now ∧ t.host = s.host) ∧
    (t.dir ≠ s.dir → ∃ d, i = .setDir d) ∧
    (t.fsTime ≠ s.fsTime → ∃ ch gnd fs, i = .map ch gnd fs ∨ i = .throttle ch gnd fs) ∧
    (t.beepTime ≠ s.beepTime → ∃ fs, i = .beepTick fs) ∧
    (t.pin ≠ s.pin ∨ t.trace ≠ s.trace → i = .transmit ∨ (∃ gnd fs, i = .throttle 3 gnd fs) ∨ ∃ fs, i = .beepTick fs) ∧
    (t.tl ≠ s.tl ∨ t.encMask ≠ s.encMask → i = .transmit ∨ (∃ ch v tlm, i = .encode ch v tlm) ∨
      (∃ ch gnd fs, i = .throttle ch gnd fs) ∨ ∃ fs, i = .beepTick fs) ∧
    (t.faults ≠ s.faults → isNaN s.thr = true ∧ ∃ ch gnd fs, i = .map ch gnd fs ∨ i = .throttle ch gnd fs)

/-- No command removes a fault or a hazard: a step that takes a presented command keeps every one recorded (R112, R114). -/
def Obligations.RecordsAreSticky : Prop :=
  ∀ (s t : State) (c : Command) (rest : List HostInput), s.host = .command c :: rest → step s = .next t →
    (∀ f, f ∈ s.faults → f ∈ t.faults) ∧ ∀ h, h ∈ s.haz → h ∈ t.haz

/-- A command does not depend on a bus it does not read, nor on `RESP`'s previous value (R54, R55, R56); a command that
raises `THROTTLE_NAN` has no other effect, so it leaves `RESP` as it was (R88). -/
def Obligations.UnreadBusesIgnored : Prop :=
  ∀ (i : Instr) (s : State), ∃ t, exec i s = .next t ∧
    (readsThr i = false → ∀ w, exec i { s with thr := w } = .next { t with thr := w }) ∧
    (readsNow i = false → ∀ w, exec i { s with now := w } = .next { t with now := w }) ∧
    ∀ r, exec i { s with resp := r } = .next (if raisesThrottleNan s i then { t with resp := r } else t)

/-- A host that keeps the encode duties (R135, R137) causes no hazard. Against them, an ENCODE, a THROTTLE that is no NaN and
a BEEP_TICK in a window record exactly `DOUBLE_ENCODE` of the channels they encode a second time; a NaN THROTTLE and a
BEEP_TICK that sends nothing record none (R71, R108, R114). -/
def Obligations.DutyCausesNoHazard : Prop :=
  ∀ (i : Instr) (s t : State), exec i s = .next t →
    (encodeDuty s i = true → t.haz = s.haz) ∧
    (∀ ch v tlm, i = .encode ch v tlm → encodeDuty s i = false →
      ∀ h, h ∈ t.haz ↔ h ∈ s.haz ∨ h = .doubleEncode ch) ∧
    (∀ ch gnd fs, i = .throttle ch gnd fs → isNaN s.thr = false → encodeDuty s i = false →
      ∀ h, h ∈ t.haz ↔ h ∈ s.haz ∨ h = .doubleEncode ch) ∧
    (∀ fs code, i = .beepTick fs → s.beepHit fs = some code →
      ∀ h, h ∈ t.haz ↔ h ∈ s.haz ∨ ∃ ch : Channel, s.encMask.getLsbD ch.val = true ∧ h = .doubleEncode ch) ∧
    (∀ fs, i = .beepTick fs → s.beepHit fs = none → t.haz = s.haz) ∧
    (∀ ch gnd fs, i = .throttle ch gnd fs → isNaN s.thr = true → t.haz = s.haz)

/-! ## Timing and assembly -/

/-- The waveform of a TRANSMIT under the configured profile: one time for each of its events, in order; each write of slot
`i` falls inside slot `i`; the four writes of a slot lie within `EDGE_SKEW_MAX` of each other; the 64 slots last 16 bit
periods, a slot a quarter of one; `NOP_SET < NOP_RESET`; `T_BIT(SLOW)` is within the tolerance of `2 * T_BIT(FAST)` and more
than `T_BIT(FAST)` (R81, R82, R85, R131, R145). OFF, its bounds among it, is the model's build of an open function (log 5);
that unstated numbers meet `CFG_TIMING` is the layout of `openTiming`, and the tolerance is open below `T_BIT(FAST)` (log 3). -/
def Obligations.WaveformTiming : Prop :=
  ∀ (s : State) (t0 : Nat), failingCheck s.cfg = none →
    ∃ p w, s.cfg.profiles = [p] ∧ waveform s t0 = some w ∧
      w.map Prod.snd = transmitEvents s ∧
      (∀ time i ch level, (time, TraceRec.pinWrite i ch level) ∈ w →
        t0 + i.val * slotTime (timingOf s.cfg) p ≤ time ∧ time < t0 + (i.val + 1) * slotTime (timingOf s.cfg) p) ∧
      (∀ time time' i ch ch' level level', (time, TraceRec.pinWrite i ch level) ∈ w →
        (time', TraceRec.pinWrite i ch' level') ∈ w → time ≤ time' + (timingOf s.cfg).edgeSkewMax) ∧
      slotDuration s.cfg = some (bitTime (timingOf s.cfg) p / 4) ∧
      4 * slotTime (timingOf s.cfg) p = bitTime (timingOf s.cfg) p ∧
      transmitTime s.cfg = some (16 * bitTime (timingOf s.cfg) p) ∧
      (timingOf s.cfg).nopSet < (timingOf s.cfg).nopReset ∧ (timingOf s.cfg).bitFast < (timingOf s.cfg).bitSlow ∧
      |((timingOf s.cfg).bitSlow : Int) - 2 * (timingOf s.cfg).bitFast| ≤ slowTolerance (timingOf s.cfg).bitFast

/-- Assembly, whole: each line with its operands in range gives the word of its fields at their bits, and the buses of its
`thr` and `now` operands; a line with an operand out of range gives nothing (R52, R57, R61). CYCLE is four THROTTLEs on
channels 0 to 3 with their own throttles and the common time and flags, BEEPFRAME four ENCODEs with telemetry 1 and a
TRANSMIT (R62). An operand bus that a command does not read is presented as 0 (log 16). -/
def Obligations.PseudoCommandsExpand : Prop :=
  (∀ ch value tlm : Nat, assemble (.encode ch value tlm) =
    if ch < 4 ∧ value < 2048 ∧ tlm < 2 then some [⟨BitVec.ofNat 32 (1 + 2 ^ 4 * ch + 2 ^ 6 * value + 2 ^ 17 * tlm), 0, 0⟩]
    else none) ∧
  assemble .transmit = some [⟨2, 0, 0⟩] ∧
  (∀ (ch now gnd fs : Nat) (thr : ThrLit), assemble (.map ch thr now gnd fs) =
    if ch < 4 ∧ now < 2 ^ 32 ∧ gnd < 2 ∧ fs < 2 then
      some [⟨BitVec.ofNat 32 (3 + 2 ^ 4 * ch + 2 ^ 19 * gnd + 2 ^ 20 * fs), thr.word, BitVec.ofNat 32 now⟩]
    else none) ∧
  (∀ (ch now gnd fs : Nat) (thr : ThrLit), assemble (.throttle ch thr now gnd fs) =
    if ch < 4 ∧ now < 2 ^ 32 ∧ gnd < 2 ∧ fs < 2 then
      some [⟨BitVec.ofNat 32 (4 + 2 ^ 4 * ch + 2 ^ 19 * gnd + 2 ^ 20 * fs), thr.word, BitVec.ofNat 32 now⟩]
    else none) ∧
  (∀ now fs : Nat, assemble (.beepTick now fs) =
    if now < 2 ^ 32 ∧ fs < 2 then some [⟨BitVec.ofNat 32 (5 + 2 ^ 20 * fs), 0, BitVec.ofNat 32 now⟩] else none) ∧
  assemble (.setDir .forward) = some [⟨6, 0, 0⟩] ∧ assemble (.setDir .reverse) = some [⟨6 + 2 ^ 18, 0, 0⟩] ∧
  (∀ (t0 t1 t2 t3 : ThrLit) (now gnd fs : Nat),
    assemble (.cycle t0 t1 t2 t3 now gnd fs) =
      (do let a ← assemble (.throttle 0 t0 now gnd fs)
          let b ← assemble (.throttle 1 t1 now gnd fs)
          let c ← assemble (.throttle 2 t2 now gnd fs)
          let d ← assemble (.throttle 3 t3 now gnd fs)
          some (a ++ b ++ c ++ d))) ∧
  ∀ code : Nat, assemble (.beepFrame code) =
      (do let a ← assemble (.encode 0 code 1)
          let b ← assemble (.encode 1 code 1)
          let c ← assemble (.encode 2 code 1)
          let d ← assemble (.encode 3 code 1)
          let e ← assemble .transmit
          some (a ++ b ++ c ++ d ++ e))

/-- Throttle operands on the bus: a bus pattern is taken as it is, and a decimal is the binary32 value of its sign and of
its magnitude rounded to nearest, ties to even, an infinity of its sign past the greatest finite value (R54, R61; what an
overflowing literal gives is log 16). -/
def Obligations.ThrottleLiterals : Prop :=
  (∀ p : Word, (ThrLit.bits p).word = p) ∧
  ∀ (neg : Bool) (digits places : Nat), ∃ r, NearestEven (digits * 2 ^ 149) (10 ^ places) r ∧
    (r < 2 ^ 277 → F32.ofWord (ThrLit.decimal neg digits places).word = ⟨neg, r⟩ ∧
      (ThrLit.decimal neg digits places).word.extractLsb' 23 8 ≠ 0xFF) ∧
    (2 ^ 277 ≤ r → (ThrLit.decimal neg digits places).word = if neg then 0xFF800000 else 0x7F800000)
end

