-- ==== Sys2Proof/Laws/Binary32.lean ====
section
/-! SUPPORT. Binary32 magnitudes and rounding are monotone (42_throttle_failsafe.md R90 c, R98). -/
namespace Sys2Proof.Machine

/-- The quotient that rounding works on has at most 24 bits. -/
theorem roundRatio_quotient_lt (num den : Nat) :
    num / (den * 2 ^ (Nat.log2 (num / den) - 23)) < 2 ^ 24 := by
  rw [← Nat.div_div_eq_div_mul]
  refine Nat.div_lt_of_lt_mul ?_
  have h := Nat.lt_log2_self (n := num / den)
  rw [← pow_add]
  exact lt_of_lt_of_le h (Nat.pow_le_pow_right (by omega) (by omega))

/-- When the quantum is more than one unit, the quotient has exactly 24 bits. -/
theorem le_roundRatio_quotient {num den : Nat} (he : 0 < Nat.log2 (num / den) - 23) :
    2 ^ 23 ≤ num / (den * 2 ^ (Nat.log2 (num / den) - 23)) := by
  have h0 : num / den ≠ 0 := by
    intro h; rw [h] at he; simp at he
  rw [← Nat.div_div_eq_div_mul, Nat.le_div_iff_mul_le (by positivity), ← pow_add]
  have h : 2 ^ Nat.log2 (num / den) ≤ num / den := Nat.log2_self_le h0
  exact le_trans (Nat.pow_le_pow_right (by omega) (by omega)) h

theorem log2_mono {a b : Nat} (h : a ≤ b) : Nat.log2 a ≤ Nat.log2 b := by
  by_cases ha : a = 0
  · subst ha; simp
  · have hb : b ≠ 0 := by omega
    exact (Nat.le_log2 hb).2 (le_trans (Nat.log2_self_le ha) h)

/-- Rounding at one quantum is monotone: a tie never goes up below and down above. -/
theorem roundAt_mono (q : Nat) {a b : Nat} (h : a ≤ b) :
    (if q < 2 * (a % q) ∨ (2 * (a % q) = q ∧ a / q % 2 = 1) then a / q + 1 else a / q) ≤
      (if q < 2 * (b % q) ∨ (2 * (b % q) = q ∧ b / q % 2 = 1) then b / q + 1 else b / q) := by
  have hdiv : a / q ≤ b / q := Nat.div_le_div_right h
  rcases Nat.lt_or_eq_of_le hdiv with hlt | heq
  · split <;> split <;> omega
  · have ha := Nat.div_add_mod a q
    have hb := Nat.div_add_mod b q
    rw [heq] at ha ⊢
    have hm : a % q ≤ b % q := by omega
    split <;> split <;> omega

/-- Rounding to nearest, ties to even, is monotone in the numerator. -/
theorem roundRatio_mono (den : Nat) {a b : Nat} (h : a ≤ b) : roundRatio a den ≤ roundRatio b den := by
  have form : ∀ n : Nat, roundRatio n den =
      (if den * 2 ^ (Nat.log2 (n / den) - 23) < 2 * (n % (den * 2 ^ (Nat.log2 (n / den) - 23))) ∨
          (2 * (n % (den * 2 ^ (Nat.log2 (n / den) - 23))) = den * 2 ^ (Nat.log2 (n / den) - 23) ∧
            n / (den * 2 ^ (Nat.log2 (n / den) - 23)) % 2 = 1)
        then n / (den * 2 ^ (Nat.log2 (n / den) - 23)) + 1
        else n / (den * 2 ^ (Nat.log2 (n / den) - 23))) * 2 ^ (Nat.log2 (n / den) - 23) := by
    intro n; simp only [roundRatio]; split <;> rfl
  have hlog : Nat.log2 (a / den) - 23 ≤ Nat.log2 (b / den) - 23 :=
    Nat.sub_le_sub_right (log2_mono (Nat.div_le_div_right h)) 23
  rw [form a, form b]
  rcases Nat.lt_or_eq_of_le hlog with hlt | heq
  · have hqa := roundRatio_quotient_lt a den
    have hqb := le_roundRatio_quotient (num := b) (den := den) (by omega)
    generalize Nat.log2 (a / den) - 23 = ea at *
    generalize Nat.log2 (b / den) - 23 = eb at *
    calc _ ≤ 2 ^ 24 * 2 ^ ea := Nat.mul_le_mul_right _ (by split <;> omega)
      _ = 2 ^ 23 * 2 ^ (ea + 1) := by rw [pow_succ 2 ea]; ring
      _ ≤ 2 ^ 23 * 2 ^ eb := Nat.mul_le_mul_left _ (Nat.pow_le_pow_right (by omega) (by omega))
      _ ≤ _ := Nat.mul_le_mul_right _ (by split <;> omega)
  · rw [heq]
    exact Nat.mul_le_mul_right _ (roundAt_mono _ h)

/-- The magnitude of a pattern without its sign bit. -/
theorem ofWord_mag_of_lt {t : Word} (h : t.toNat < 2 ^ 31) :
    (F32.ofWord t).mag =
      if t.toNat / 2 ^ 23 = 0 then t.toNat else (2 ^ 23 + t.toNat % 2 ^ 23) * 2 ^ (t.toNat / 2 ^ 23 - 1) := by
  simp only [F32.ofWord, BitVec.extractLsb'_toNat, Nat.shiftRight_eq_div_pow]
  rw [show t.toNat / 2 ^ 23 % 2 ^ 8 = t.toNat / 2 ^ 23 by omega, show t.toNat / 2 ^ 0 % 2 ^ 23 = t.toNat % 2 ^ 23 by omega]
  split
  · omega
  · rfl

/-- On the patterns without a sign bit, the magnitude rises with the pattern. -/
theorem ofWord_mag_mono {t u : Word} (hu : u.toNat < 2 ^ 31) (h : t.toNat ≤ u.toNat) :
    (F32.ofWord t).mag ≤ (F32.ofWord u).mag := by
  rw [ofWord_mag_of_lt hu, ofWord_mag_of_lt (by omega)]
  generalize t.toNat = a at *
  generalize u.toNat = b at *
  have hda := Nat.div_add_mod a (2 ^ 23)
  have hdb := Nat.div_add_mod b (2 ^ 23)
  have hma := Nat.mod_lt a (show 0 < 2 ^ 23 by norm_num)
  have hmb := Nat.mod_lt b (show 0 < 2 ^ 23 by norm_num)
  have hd : a / 2 ^ 23 ≤ b / 2 ^ 23 := Nat.div_le_div_right h
  generalize a / 2 ^ 23 = ea at *
  generalize b / 2 ^ 23 = eb at *
  generalize a % 2 ^ 23 = ma at *
  generalize b % 2 ^ 23 = mb at *
  by_cases hb0 : eb = 0
  · rw [if_pos hb0, if_pos (by omega)]; exact h
  · rw [if_neg hb0]
    have hp : 1 ≤ 2 ^ (eb - 1) := Nat.one_le_two_pow
    by_cases ha0 : ea = 0
    · rw [if_pos ha0]
      calc a ≤ (2 ^ 23 + mb) * 1 := by omega
        _ ≤ _ := Nat.mul_le_mul_left _ hp
    · rw [if_neg ha0]
      rcases Nat.lt_or_eq_of_le hd with hlt | heq
      · calc (2 ^ 23 + ma) * 2 ^ (ea - 1) ≤ 2 ^ 24 * 2 ^ (ea - 1) := Nat.mul_le_mul_right _ (by omega)
          _ = 2 ^ 23 * 2 ^ ea := by
            obtain ⟨e, rfl⟩ := Nat.exists_eq_succ_of_ne_zero ha0
            rw [Nat.succ_sub_one, Nat.succ_eq_add_one, pow_succ 2 e]; ring
          _ ≤ 2 ^ 23 * 2 ^ (eb - 1) := Nat.mul_le_mul_left _ (Nat.pow_le_pow_right (by omega) (by omega))
          _ ≤ _ := Nat.mul_le_mul_right _ (by omega)
      · subst heq
        exact Nat.mul_le_mul_right _ (by omega)

end Sys2Proof.Machine
end

