-- ==== Sys2Proof/Laws/Codec.lean ====
section
/-! SUPPORT. Fields and words determine each other (30_encoding.md R52). -/
namespace Sys2Proof

theorem Fields.toWord_toNat (f : Fields) : f.toWord.toNat =
    f.op.toNat + 2 ^ 4 * f.ch.toNat + 2 ^ 6 * f.val.toNat + 2 ^ 17 * f.tlm.toNat + 2 ^ 18 * f.dir.toNat
      + 2 ^ 19 * f.gnd.toNat + 2 ^ 20 * f.fs.toNat + 2 ^ 21 * f.rsv.toNat := by
  have h1 := f.op.isLt; have h2 := f.ch.isLt; have h3 := f.val.isLt; have h4 := f.tlm.isLt
  have h5 := f.dir.isLt; have h6 := f.gnd.isLt; have h7 := f.fs.isLt; have h8 := f.rsv.isLt
  simp only [Fields.toWord, BitVec.toNat_ofNat]
  omega

/-- Reading the fields of a word made from fields gives them back. -/
theorem Fields.ofWord_toWord (f : Fields) : Fields.ofWord f.toWord = f := by
  have h1 := f.op.isLt; have h2 := f.ch.isLt; have h3 := f.val.isLt; have h4 := f.tlm.isLt
  have h5 := f.dir.isLt; have h6 := f.gnd.isLt; have h7 := f.fs.isLt; have h8 := f.rsv.isLt
  have hw := f.toWord_toNat
  cases f with
  | mk op ch val tlm dir gnd fs rsv =>
    simp only [Fields.ofWord, Fields.mk.injEq]
    simp only at h1 h2 h3 h4 h5 h6 h7 h8 hw
    refine ⟨?_, ?_, ?_, ?_, ?_, ?_, ?_, ?_⟩ <;>
      (apply BitVec.eq_of_toNat_eq
       simp only [BitVec.extractLsb'_toNat, Nat.shiftRight_eq_div_pow, hw]
       omega)

/-- A word is the word of its fields. -/
theorem Fields.toWord_ofWord (w : Word) : (Fields.ofWord w).toWord = w := by
  apply BitVec.eq_of_toNat_eq
  rw [Fields.toWord_toNat]
  have := w.isLt
  simp only [Fields.ofWord, BitVec.extractLsb'_toNat, Nat.shiftRight_eq_div_pow]
  omega

@[simp] theorem flagOf_flagBit (b : Bool) : flagOf (flagBit b) = b := by cases b <;> rfl

theorem flagBit_flagOf : ∀ b : BitVec 1, flagBit (flagOf b) = b := by decide

@[simp] theorem directionOf_directionBit (d : Direction) : directionOf (directionBit d) = d := by cases d <;> rfl

theorem directionBit_directionOf : ∀ b : BitVec 1, directionBit (directionOf b) = b := by decide

/-- The fields of a command's word are the command's fields. -/
theorem ofWord_encode (i : Instr) : Fields.ofWord (encode i) = i.fields := Fields.ofWord_toWord _

end Sys2Proof
end

