-- ==== Sys2Proof/Laws/State.lean ====
section
/-! SUPPORT. What every named update of the state does to every field: one lemma per field per update. -/
namespace Sys2Proof.Machine

@[simp] theorem State.tlWrite_cfg (s : State) (i : Slot) (v : Byte) : (s.tlWrite i v).cfg = s.cfg := rfl
@[simp] theorem State.tlWrite_tl (s : State) (i : Slot) (v : Byte) : (s.tlWrite i v).tl = Memory.write s.tl i.val v := rfl
@[simp] theorem State.tlWrite_dir (s : State) (i : Slot) (v : Byte) : (s.tlWrite i v).dir = s.dir := rfl
@[simp] theorem State.tlWrite_fsTime (s : State) (i : Slot) (v : Byte) : (s.tlWrite i v).fsTime = s.fsTime := rfl
@[simp] theorem State.tlWrite_beepTime (s : State) (i : Slot) (v : Byte) : (s.tlWrite i v).beepTime = s.beepTime := rfl
@[simp] theorem State.tlWrite_pin (s : State) (i : Slot) (v : Byte) : (s.tlWrite i v).pin = s.pin := rfl
@[simp] theorem State.tlWrite_resp (s : State) (i : Slot) (v : Byte) : (s.tlWrite i v).resp = s.resp := rfl
@[simp] theorem State.tlWrite_encMask (s : State) (i : Slot) (v : Byte) : (s.tlWrite i v).encMask = s.encMask := rfl
@[simp] theorem State.tlWrite_haz (s : State) (i : Slot) (v : Byte) : (s.tlWrite i v).haz = s.haz := rfl
@[simp] theorem State.tlWrite_faults (s : State) (i : Slot) (v : Byte) : (s.tlWrite i v).faults = s.faults := rfl
@[simp] theorem State.tlWrite_trace (s : State) (i : Slot) (v : Byte) : (s.tlWrite i v).trace = s.trace := rfl
@[simp] theorem State.tlWrite_past (s : State) (i : Slot) (v : Byte) : (s.tlWrite i v).past = s.past := rfl
@[simp] theorem State.tlWrite_cmd (s : State) (i : Slot) (v : Byte) : (s.tlWrite i v).cmd = s.cmd := rfl
@[simp] theorem State.tlWrite_thr (s : State) (i : Slot) (v : Byte) : (s.tlWrite i v).thr = s.thr := rfl
@[simp] theorem State.tlWrite_now (s : State) (i : Slot) (v : Byte) : (s.tlWrite i v).now = s.now := rfl
@[simp] theorem State.tlWrite_host (s : State) (i : Slot) (v : Byte) : (s.tlWrite i v).host = s.host := rfl

@[simp] theorem State.tlOr_cfg (s : State) (i : Slot) (ch : Channel) : (s.tlOr i ch).cfg = s.cfg := rfl
@[simp] theorem State.tlOr_tl (s : State) (i : Slot) (ch : Channel) : (s.tlOr i ch).tl = Memory.write s.tl i.val (s.tlRead i ||| laneBit ch) := rfl
@[simp] theorem State.tlOr_dir (s : State) (i : Slot) (ch : Channel) : (s.tlOr i ch).dir = s.dir := rfl
@[simp] theorem State.tlOr_fsTime (s : State) (i : Slot) (ch : Channel) : (s.tlOr i ch).fsTime = s.fsTime := rfl
@[simp] theorem State.tlOr_beepTime (s : State) (i : Slot) (ch : Channel) : (s.tlOr i ch).beepTime = s.beepTime := rfl
@[simp] theorem State.tlOr_pin (s : State) (i : Slot) (ch : Channel) : (s.tlOr i ch).pin = s.pin := rfl
@[simp] theorem State.tlOr_resp (s : State) (i : Slot) (ch : Channel) : (s.tlOr i ch).resp = s.resp := rfl
@[simp] theorem State.tlOr_encMask (s : State) (i : Slot) (ch : Channel) : (s.tlOr i ch).encMask = s.encMask := rfl
@[simp] theorem State.tlOr_haz (s : State) (i : Slot) (ch : Channel) : (s.tlOr i ch).haz = s.haz := rfl
@[simp] theorem State.tlOr_faults (s : State) (i : Slot) (ch : Channel) : (s.tlOr i ch).faults = s.faults := rfl
@[simp] theorem State.tlOr_trace (s : State) (i : Slot) (ch : Channel) : (s.tlOr i ch).trace = s.trace := rfl
@[simp] theorem State.tlOr_past (s : State) (i : Slot) (ch : Channel) : (s.tlOr i ch).past = s.past := rfl
@[simp] theorem State.tlOr_cmd (s : State) (i : Slot) (ch : Channel) : (s.tlOr i ch).cmd = s.cmd := rfl
@[simp] theorem State.tlOr_thr (s : State) (i : Slot) (ch : Channel) : (s.tlOr i ch).thr = s.thr := rfl
@[simp] theorem State.tlOr_now (s : State) (i : Slot) (ch : Channel) : (s.tlOr i ch).now = s.now := rfl
@[simp] theorem State.tlOr_host (s : State) (i : Slot) (ch : Channel) : (s.tlOr i ch).host = s.host := rfl

@[simp] theorem State.emit_cfg (s : State) (r : TraceRec) : (s.emit r).cfg = s.cfg := rfl
@[simp] theorem State.emit_tl (s : State) (r : TraceRec) : (s.emit r).tl = s.tl := rfl
@[simp] theorem State.emit_dir (s : State) (r : TraceRec) : (s.emit r).dir = s.dir := rfl
@[simp] theorem State.emit_fsTime (s : State) (r : TraceRec) : (s.emit r).fsTime = s.fsTime := rfl
@[simp] theorem State.emit_beepTime (s : State) (r : TraceRec) : (s.emit r).beepTime = s.beepTime := rfl
@[simp] theorem State.emit_pin (s : State) (r : TraceRec) : (s.emit r).pin = s.pin := rfl
@[simp] theorem State.emit_resp (s : State) (r : TraceRec) : (s.emit r).resp = s.resp := rfl
@[simp] theorem State.emit_encMask (s : State) (r : TraceRec) : (s.emit r).encMask = s.encMask := rfl
@[simp] theorem State.emit_haz (s : State) (r : TraceRec) : (s.emit r).haz = s.haz := rfl
@[simp] theorem State.emit_faults (s : State) (r : TraceRec) : (s.emit r).faults = s.faults := rfl
@[simp] theorem State.emit_trace (s : State) (r : TraceRec) : (s.emit r).trace = s.trace ++ [r] := rfl
@[simp] theorem State.emit_past (s : State) (r : TraceRec) : (s.emit r).past = s.past := rfl
@[simp] theorem State.emit_cmd (s : State) (r : TraceRec) : (s.emit r).cmd = s.cmd := rfl
@[simp] theorem State.emit_thr (s : State) (r : TraceRec) : (s.emit r).thr = s.thr := rfl
@[simp] theorem State.emit_now (s : State) (r : TraceRec) : (s.emit r).now = s.now := rfl
@[simp] theorem State.emit_host (s : State) (r : TraceRec) : (s.emit r).host = s.host := rfl
@[simp] theorem State.emit_tlRead (s : State) (r : TraceRec) (j : Slot) : (s.emit r).tlRead j = s.tlRead j := rfl

@[simp] theorem State.setPin_cfg (s : State) (ch : Channel) (b : Bool) : (s.setPin ch b).cfg = s.cfg := rfl
@[simp] theorem State.setPin_tl (s : State) (ch : Channel) (b : Bool) : (s.setPin ch b).tl = s.tl := rfl
@[simp] theorem State.setPin_dir (s : State) (ch : Channel) (b : Bool) : (s.setPin ch b).dir = s.dir := rfl
@[simp] theorem State.setPin_fsTime (s : State) (ch : Channel) (b : Bool) : (s.setPin ch b).fsTime = s.fsTime := rfl
@[simp] theorem State.setPin_beepTime (s : State) (ch : Channel) (b : Bool) : (s.setPin ch b).beepTime = s.beepTime := rfl
@[simp] theorem State.setPin_pin (s : State) (ch : Channel) (b : Bool) : (s.setPin ch b).pin = setLane s.pin ch b := rfl
@[simp] theorem State.setPin_resp (s : State) (ch : Channel) (b : Bool) : (s.setPin ch b).resp = s.resp := rfl
@[simp] theorem State.setPin_encMask (s : State) (ch : Channel) (b : Bool) : (s.setPin ch b).encMask = s.encMask := rfl
@[simp] theorem State.setPin_haz (s : State) (ch : Channel) (b : Bool) : (s.setPin ch b).haz = s.haz := rfl
@[simp] theorem State.setPin_faults (s : State) (ch : Channel) (b : Bool) : (s.setPin ch b).faults = s.faults := rfl
@[simp] theorem State.setPin_trace (s : State) (ch : Channel) (b : Bool) : (s.setPin ch b).trace = s.trace := rfl
@[simp] theorem State.setPin_past (s : State) (ch : Channel) (b : Bool) : (s.setPin ch b).past = s.past := rfl
@[simp] theorem State.setPin_cmd (s : State) (ch : Channel) (b : Bool) : (s.setPin ch b).cmd = s.cmd := rfl
@[simp] theorem State.setPin_thr (s : State) (ch : Channel) (b : Bool) : (s.setPin ch b).thr = s.thr := rfl
@[simp] theorem State.setPin_now (s : State) (ch : Channel) (b : Bool) : (s.setPin ch b).now = s.now := rfl
@[simp] theorem State.setPin_host (s : State) (ch : Channel) (b : Bool) : (s.setPin ch b).host = s.host := rfl
@[simp] theorem State.setPin_tlRead (s : State) (ch : Channel) (b : Bool) (j : Slot) : (s.setPin ch b).tlRead j = s.tlRead j := rfl

@[simp] theorem State.pinWrite_cfg (s : State) (i : Slot) (ch : Channel) (b : Bool) : (s.pinWrite i ch b).cfg = s.cfg := rfl
@[simp] theorem State.pinWrite_tl (s : State) (i : Slot) (ch : Channel) (b : Bool) : (s.pinWrite i ch b).tl = s.tl := rfl
@[simp] theorem State.pinWrite_dir (s : State) (i : Slot) (ch : Channel) (b : Bool) : (s.pinWrite i ch b).dir = s.dir := rfl
@[simp] theorem State.pinWrite_fsTime (s : State) (i : Slot) (ch : Channel) (b : Bool) : (s.pinWrite i ch b).fsTime = s.fsTime := rfl
@[simp] theorem State.pinWrite_beepTime (s : State) (i : Slot) (ch : Channel) (b : Bool) : (s.pinWrite i ch b).beepTime = s.beepTime := rfl
@[simp] theorem State.pinWrite_pin (s : State) (i : Slot) (ch : Channel) (b : Bool) : (s.pinWrite i ch b).pin = setLane s.pin ch b := rfl
@[simp] theorem State.pinWrite_resp (s : State) (i : Slot) (ch : Channel) (b : Bool) : (s.pinWrite i ch b).resp = s.resp := rfl
@[simp] theorem State.pinWrite_encMask (s : State) (i : Slot) (ch : Channel) (b : Bool) : (s.pinWrite i ch b).encMask = s.encMask := rfl
@[simp] theorem State.pinWrite_haz (s : State) (i : Slot) (ch : Channel) (b : Bool) : (s.pinWrite i ch b).haz = s.haz := rfl
@[simp] theorem State.pinWrite_faults (s : State) (i : Slot) (ch : Channel) (b : Bool) : (s.pinWrite i ch b).faults = s.faults := rfl
@[simp] theorem State.pinWrite_trace (s : State) (i : Slot) (ch : Channel) (b : Bool) : (s.pinWrite i ch b).trace = s.trace ++ [.pinWrite i ch b] := rfl
@[simp] theorem State.pinWrite_past (s : State) (i : Slot) (ch : Channel) (b : Bool) : (s.pinWrite i ch b).past = s.past := rfl
@[simp] theorem State.pinWrite_cmd (s : State) (i : Slot) (ch : Channel) (b : Bool) : (s.pinWrite i ch b).cmd = s.cmd := rfl
@[simp] theorem State.pinWrite_thr (s : State) (i : Slot) (ch : Channel) (b : Bool) : (s.pinWrite i ch b).thr = s.thr := rfl
@[simp] theorem State.pinWrite_now (s : State) (i : Slot) (ch : Channel) (b : Bool) : (s.pinWrite i ch b).now = s.now := rfl
@[simp] theorem State.pinWrite_host (s : State) (i : Slot) (ch : Channel) (b : Bool) : (s.pinWrite i ch b).host = s.host := rfl
@[simp] theorem State.pinWrite_tlRead (s : State) (i : Slot) (ch : Channel) (b : Bool) (j : Slot) : (s.pinWrite i ch b).tlRead j = s.tlRead j := rfl

@[simp] theorem State.setDir_cfg (s : State) (d : Direction) : (s.setDir d).cfg = s.cfg := rfl
@[simp] theorem State.setDir_tl (s : State) (d : Direction) : (s.setDir d).tl = s.tl := rfl
@[simp] theorem State.setDir_dir (s : State) (d : Direction) : (s.setDir d).dir = d := rfl
@[simp] theorem State.setDir_fsTime (s : State) (d : Direction) : (s.setDir d).fsTime = s.fsTime := rfl
@[simp] theorem State.setDir_beepTime (s : State) (d : Direction) : (s.setDir d).beepTime = s.beepTime := rfl
@[simp] theorem State.setDir_pin (s : State) (d : Direction) : (s.setDir d).pin = s.pin := rfl
@[simp] theorem State.setDir_resp (s : State) (d : Direction) : (s.setDir d).resp = s.resp := rfl
@[simp] theorem State.setDir_encMask (s : State) (d : Direction) : (s.setDir d).encMask = s.encMask := rfl
@[simp] theorem State.setDir_haz (s : State) (d : Direction) : (s.setDir d).haz = s.haz := rfl
@[simp] theorem State.setDir_faults (s : State) (d : Direction) : (s.setDir d).faults = s.faults := rfl
@[simp] theorem State.setDir_trace (s : State) (d : Direction) : (s.setDir d).trace = s.trace := rfl
@[simp] theorem State.setDir_past (s : State) (d : Direction) : (s.setDir d).past = s.past := rfl
@[simp] theorem State.setDir_cmd (s : State) (d : Direction) : (s.setDir d).cmd = s.cmd := rfl
@[simp] theorem State.setDir_thr (s : State) (d : Direction) : (s.setDir d).thr = s.thr := rfl
@[simp] theorem State.setDir_now (s : State) (d : Direction) : (s.setDir d).now = s.now := rfl
@[simp] theorem State.setDir_host (s : State) (d : Direction) : (s.setDir d).host = s.host := rfl
@[simp] theorem State.setDir_tlRead (s : State) (d : Direction) (j : Slot) : (s.setDir d).tlRead j = s.tlRead j := rfl

@[simp] theorem State.setFsTime_cfg (s : State) (t : Word) : (s.setFsTime t).cfg = s.cfg := rfl
@[simp] theorem State.setFsTime_tl (s : State) (t : Word) : (s.setFsTime t).tl = s.tl := rfl
@[simp] theorem State.setFsTime_dir (s : State) (t : Word) : (s.setFsTime t).dir = s.dir := rfl
@[simp] theorem State.setFsTime_fsTime (s : State) (t : Word) : (s.setFsTime t).fsTime = t := rfl
@[simp] theorem State.setFsTime_beepTime (s : State) (t : Word) : (s.setFsTime t).beepTime = s.beepTime := rfl
@[simp] theorem State.setFsTime_pin (s : State) (t : Word) : (s.setFsTime t).pin = s.pin := rfl
@[simp] theorem State.setFsTime_resp (s : State) (t : Word) : (s.setFsTime t).resp = s.resp := rfl
@[simp] theorem State.setFsTime_encMask (s : State) (t : Word) : (s.setFsTime t).encMask = s.encMask := rfl
@[simp] theorem State.setFsTime_haz (s : State) (t : Word) : (s.setFsTime t).haz = s.haz := rfl
@[simp] theorem State.setFsTime_faults (s : State) (t : Word) : (s.setFsTime t).faults = s.faults := rfl
@[simp] theorem State.setFsTime_trace (s : State) (t : Word) : (s.setFsTime t).trace = s.trace := rfl
@[simp] theorem State.setFsTime_past (s : State) (t : Word) : (s.setFsTime t).past = s.past := rfl
@[simp] theorem State.setFsTime_cmd (s : State) (t : Word) : (s.setFsTime t).cmd = s.cmd := rfl
@[simp] theorem State.setFsTime_thr (s : State) (t : Word) : (s.setFsTime t).thr = s.thr := rfl
@[simp] theorem State.setFsTime_now (s : State) (t : Word) : (s.setFsTime t).now = s.now := rfl
@[simp] theorem State.setFsTime_host (s : State) (t : Word) : (s.setFsTime t).host = s.host := rfl
@[simp] theorem State.setFsTime_tlRead (s : State) (t : Word) (j : Slot) : (s.setFsTime t).tlRead j = s.tlRead j := rfl

@[simp] theorem State.setBeepTime_cfg (s : State) (t : Word) : (s.setBeepTime t).cfg = s.cfg := rfl
@[simp] theorem State.setBeepTime_tl (s : State) (t : Word) : (s.setBeepTime t).tl = s.tl := rfl
@[simp] theorem State.setBeepTime_dir (s : State) (t : Word) : (s.setBeepTime t).dir = s.dir := rfl
@[simp] theorem State.setBeepTime_fsTime (s : State) (t : Word) : (s.setBeepTime t).fsTime = s.fsTime := rfl
@[simp] theorem State.setBeepTime_beepTime (s : State) (t : Word) : (s.setBeepTime t).beepTime = t := rfl
@[simp] theorem State.setBeepTime_pin (s : State) (t : Word) : (s.setBeepTime t).pin = s.pin := rfl
@[simp] theorem State.setBeepTime_resp (s : State) (t : Word) : (s.setBeepTime t).resp = s.resp := rfl
@[simp] theorem State.setBeepTime_encMask (s : State) (t : Word) : (s.setBeepTime t).encMask = s.encMask := rfl
@[simp] theorem State.setBeepTime_haz (s : State) (t : Word) : (s.setBeepTime t).haz = s.haz := rfl
@[simp] theorem State.setBeepTime_faults (s : State) (t : Word) : (s.setBeepTime t).faults = s.faults := rfl
@[simp] theorem State.setBeepTime_trace (s : State) (t : Word) : (s.setBeepTime t).trace = s.trace := rfl
@[simp] theorem State.setBeepTime_past (s : State) (t : Word) : (s.setBeepTime t).past = s.past := rfl
@[simp] theorem State.setBeepTime_cmd (s : State) (t : Word) : (s.setBeepTime t).cmd = s.cmd := rfl
@[simp] theorem State.setBeepTime_thr (s : State) (t : Word) : (s.setBeepTime t).thr = s.thr := rfl
@[simp] theorem State.setBeepTime_now (s : State) (t : Word) : (s.setBeepTime t).now = s.now := rfl
@[simp] theorem State.setBeepTime_host (s : State) (t : Word) : (s.setBeepTime t).host = s.host := rfl
@[simp] theorem State.setBeepTime_tlRead (s : State) (t : Word) (j : Slot) : (s.setBeepTime t).tlRead j = s.tlRead j := rfl

@[simp] theorem State.setResp_cfg (s : State) (r : BitVec 16) : (s.setResp r).cfg = s.cfg := rfl
@[simp] theorem State.setResp_tl (s : State) (r : BitVec 16) : (s.setResp r).tl = s.tl := rfl
@[simp] theorem State.setResp_dir (s : State) (r : BitVec 16) : (s.setResp r).dir = s.dir := rfl
@[simp] theorem State.setResp_fsTime (s : State) (r : BitVec 16) : (s.setResp r).fsTime = s.fsTime := rfl
@[simp] theorem State.setResp_beepTime (s : State) (r : BitVec 16) : (s.setResp r).beepTime = s.beepTime := rfl
@[simp] theorem State.setResp_pin (s : State) (r : BitVec 16) : (s.setResp r).pin = s.pin := rfl
@[simp] theorem State.setResp_resp (s : State) (r : BitVec 16) : (s.setResp r).resp = r := rfl
@[simp] theorem State.setResp_encMask (s : State) (r : BitVec 16) : (s.setResp r).encMask = s.encMask := rfl
@[simp] theorem State.setResp_haz (s : State) (r : BitVec 16) : (s.setResp r).haz = s.haz := rfl
@[simp] theorem State.setResp_faults (s : State) (r : BitVec 16) : (s.setResp r).faults = s.faults := rfl
@[simp] theorem State.setResp_trace (s : State) (r : BitVec 16) : (s.setResp r).trace = s.trace := rfl
@[simp] theorem State.setResp_past (s : State) (r : BitVec 16) : (s.setResp r).past = s.past := rfl
@[simp] theorem State.setResp_cmd (s : State) (r : BitVec 16) : (s.setResp r).cmd = s.cmd := rfl
@[simp] theorem State.setResp_thr (s : State) (r : BitVec 16) : (s.setResp r).thr = s.thr := rfl
@[simp] theorem State.setResp_now (s : State) (r : BitVec 16) : (s.setResp r).now = s.now := rfl
@[simp] theorem State.setResp_host (s : State) (r : BitVec 16) : (s.setResp r).host = s.host := rfl
@[simp] theorem State.setResp_tlRead (s : State) (r : BitVec 16) (j : Slot) : (s.setResp r).tlRead j = s.tlRead j := rfl

@[simp] theorem State.markEncoded_cfg (s : State) (ch : Channel) : (s.markEncoded ch).cfg = s.cfg := rfl
@[simp] theorem State.markEncoded_tl (s : State) (ch : Channel) : (s.markEncoded ch).tl = s.tl := rfl
@[simp] theorem State.markEncoded_dir (s : State) (ch : Channel) : (s.markEncoded ch).dir = s.dir := rfl
@[simp] theorem State.markEncoded_fsTime (s : State) (ch : Channel) : (s.markEncoded ch).fsTime = s.fsTime := rfl
@[simp] theorem State.markEncoded_beepTime (s : State) (ch : Channel) : (s.markEncoded ch).beepTime = s.beepTime := rfl
@[simp] theorem State.markEncoded_pin (s : State) (ch : Channel) : (s.markEncoded ch).pin = s.pin := rfl
@[simp] theorem State.markEncoded_resp (s : State) (ch : Channel) : (s.markEncoded ch).resp = s.resp := rfl
@[simp] theorem State.markEncoded_encMask (s : State) (ch : Channel) : (s.markEncoded ch).encMask = setLane s.encMask ch true := rfl
@[simp] theorem State.markEncoded_haz (s : State) (ch : Channel) : (s.markEncoded ch).haz = s.haz := rfl
@[simp] theorem State.markEncoded_faults (s : State) (ch : Channel) : (s.markEncoded ch).faults = s.faults := rfl
@[simp] theorem State.markEncoded_trace (s : State) (ch : Channel) : (s.markEncoded ch).trace = s.trace := rfl
@[simp] theorem State.markEncoded_past (s : State) (ch : Channel) : (s.markEncoded ch).past = s.past := rfl
@[simp] theorem State.markEncoded_cmd (s : State) (ch : Channel) : (s.markEncoded ch).cmd = s.cmd := rfl
@[simp] theorem State.markEncoded_thr (s : State) (ch : Channel) : (s.markEncoded ch).thr = s.thr := rfl
@[simp] theorem State.markEncoded_now (s : State) (ch : Channel) : (s.markEncoded ch).now = s.now := rfl
@[simp] theorem State.markEncoded_host (s : State) (ch : Channel) : (s.markEncoded ch).host = s.host := rfl
@[simp] theorem State.markEncoded_tlRead (s : State) (ch : Channel) (j : Slot) : (s.markEncoded ch).tlRead j = s.tlRead j := rfl

@[simp] theorem State.clearEncMask_cfg (s : State) : (s.clearEncMask).cfg = s.cfg := rfl
@[simp] theorem State.clearEncMask_tl (s : State) : (s.clearEncMask).tl = s.tl := rfl
@[simp] theorem State.clearEncMask_dir (s : State) : (s.clearEncMask).dir = s.dir := rfl
@[simp] theorem State.clearEncMask_fsTime (s : State) : (s.clearEncMask).fsTime = s.fsTime := rfl
@[simp] theorem State.clearEncMask_beepTime (s : State) : (s.clearEncMask).beepTime = s.beepTime := rfl
@[simp] theorem State.clearEncMask_pin (s : State) : (s.clearEncMask).pin = s.pin := rfl
@[simp] theorem State.clearEncMask_resp (s : State) : (s.clearEncMask).resp = s.resp := rfl
@[simp] theorem State.clearEncMask_encMask (s : State) : (s.clearEncMask).encMask = 0 := rfl
@[simp] theorem State.clearEncMask_haz (s : State) : (s.clearEncMask).haz = s.haz := rfl
@[simp] theorem State.clearEncMask_faults (s : State) : (s.clearEncMask).faults = s.faults := rfl
@[simp] theorem State.clearEncMask_trace (s : State) : (s.clearEncMask).trace = s.trace := rfl
@[simp] theorem State.clearEncMask_past (s : State) : (s.clearEncMask).past = s.past := rfl
@[simp] theorem State.clearEncMask_cmd (s : State) : (s.clearEncMask).cmd = s.cmd := rfl
@[simp] theorem State.clearEncMask_thr (s : State) : (s.clearEncMask).thr = s.thr := rfl
@[simp] theorem State.clearEncMask_now (s : State) : (s.clearEncMask).now = s.now := rfl
@[simp] theorem State.clearEncMask_host (s : State) : (s.clearEncMask).host = s.host := rfl
@[simp] theorem State.clearEncMask_tlRead (s : State) (j : Slot) : (s.clearEncMask).tlRead j = s.tlRead j := rfl

@[simp] theorem State.recordHazard_cfg (s : State) (h : Hazard) : (s.recordHazard h).cfg = s.cfg := rfl
@[simp] theorem State.recordHazard_tl (s : State) (h : Hazard) : (s.recordHazard h).tl = s.tl := rfl
@[simp] theorem State.recordHazard_dir (s : State) (h : Hazard) : (s.recordHazard h).dir = s.dir := rfl
@[simp] theorem State.recordHazard_fsTime (s : State) (h : Hazard) : (s.recordHazard h).fsTime = s.fsTime := rfl
@[simp] theorem State.recordHazard_beepTime (s : State) (h : Hazard) : (s.recordHazard h).beepTime = s.beepTime := rfl
@[simp] theorem State.recordHazard_pin (s : State) (h : Hazard) : (s.recordHazard h).pin = s.pin := rfl
@[simp] theorem State.recordHazard_resp (s : State) (h : Hazard) : (s.recordHazard h).resp = s.resp := rfl
@[simp] theorem State.recordHazard_encMask (s : State) (h : Hazard) : (s.recordHazard h).encMask = s.encMask := rfl
@[simp] theorem State.recordHazard_haz (s : State) (h : Hazard) : (s.recordHazard h).haz = insertBy Hazard.key h s.haz := rfl
@[simp] theorem State.recordHazard_faults (s : State) (h : Hazard) : (s.recordHazard h).faults = s.faults := rfl
@[simp] theorem State.recordHazard_trace (s : State) (h : Hazard) : (s.recordHazard h).trace = s.trace := rfl
@[simp] theorem State.recordHazard_past (s : State) (h : Hazard) : (s.recordHazard h).past = s.past := rfl
@[simp] theorem State.recordHazard_cmd (s : State) (h : Hazard) : (s.recordHazard h).cmd = s.cmd := rfl
@[simp] theorem State.recordHazard_thr (s : State) (h : Hazard) : (s.recordHazard h).thr = s.thr := rfl
@[simp] theorem State.recordHazard_now (s : State) (h : Hazard) : (s.recordHazard h).now = s.now := rfl
@[simp] theorem State.recordHazard_host (s : State) (h : Hazard) : (s.recordHazard h).host = s.host := rfl
@[simp] theorem State.recordHazard_tlRead (s : State) (h : Hazard) (j : Slot) : (s.recordHazard h).tlRead j = s.tlRead j := rfl

@[simp] theorem State.raiseFault_cfg (s : State) (f : ModelFault) : (s.raiseFault f).cfg = s.cfg := rfl
@[simp] theorem State.raiseFault_tl (s : State) (f : ModelFault) : (s.raiseFault f).tl = s.tl := rfl
@[simp] theorem State.raiseFault_dir (s : State) (f : ModelFault) : (s.raiseFault f).dir = s.dir := rfl
@[simp] theorem State.raiseFault_fsTime (s : State) (f : ModelFault) : (s.raiseFault f).fsTime = s.fsTime := rfl
@[simp] theorem State.raiseFault_beepTime (s : State) (f : ModelFault) : (s.raiseFault f).beepTime = s.beepTime := rfl
@[simp] theorem State.raiseFault_pin (s : State) (f : ModelFault) : (s.raiseFault f).pin = s.pin := rfl
@[simp] theorem State.raiseFault_resp (s : State) (f : ModelFault) : (s.raiseFault f).resp = s.resp := rfl
@[simp] theorem State.raiseFault_encMask (s : State) (f : ModelFault) : (s.raiseFault f).encMask = s.encMask := rfl
@[simp] theorem State.raiseFault_haz (s : State) (f : ModelFault) : (s.raiseFault f).haz = s.haz := rfl
@[simp] theorem State.raiseFault_faults (s : State) (f : ModelFault) : (s.raiseFault f).faults = insertBy ModelFault.key f s.faults := rfl
@[simp] theorem State.raiseFault_trace (s : State) (f : ModelFault) : (s.raiseFault f).trace = s.trace := rfl
@[simp] theorem State.raiseFault_past (s : State) (f : ModelFault) : (s.raiseFault f).past = s.past := rfl
@[simp] theorem State.raiseFault_cmd (s : State) (f : ModelFault) : (s.raiseFault f).cmd = s.cmd := rfl
@[simp] theorem State.raiseFault_thr (s : State) (f : ModelFault) : (s.raiseFault f).thr = s.thr := rfl
@[simp] theorem State.raiseFault_now (s : State) (f : ModelFault) : (s.raiseFault f).now = s.now := rfl
@[simp] theorem State.raiseFault_host (s : State) (f : ModelFault) : (s.raiseFault f).host = s.host := rfl
@[simp] theorem State.raiseFault_tlRead (s : State) (f : ModelFault) (j : Slot) : (s.raiseFault f).tlRead j = s.tlRead j := rfl

@[simp] theorem State.illegalCommand_cfg (s : State) : (s.illegalCommand).cfg = s.cfg := rfl
@[simp] theorem State.illegalCommand_tl (s : State) : (s.illegalCommand).tl = s.tl := rfl
@[simp] theorem State.illegalCommand_dir (s : State) : (s.illegalCommand).dir = s.dir := rfl
@[simp] theorem State.illegalCommand_fsTime (s : State) : (s.illegalCommand).fsTime = s.fsTime := rfl
@[simp] theorem State.illegalCommand_beepTime (s : State) : (s.illegalCommand).beepTime = s.beepTime := rfl
@[simp] theorem State.illegalCommand_pin (s : State) : (s.illegalCommand).pin = s.pin := rfl
@[simp] theorem State.illegalCommand_resp (s : State) : (s.illegalCommand).resp = 0 := rfl
@[simp] theorem State.illegalCommand_encMask (s : State) : (s.illegalCommand).encMask = s.encMask := rfl
@[simp] theorem State.illegalCommand_haz (s : State) : (s.illegalCommand).haz = s.haz := rfl
@[simp] theorem State.illegalCommand_faults (s : State) : (s.illegalCommand).faults = insertBy ModelFault.key (.illegalCommand s.cmd) s.faults := rfl
@[simp] theorem State.illegalCommand_trace (s : State) : (s.illegalCommand).trace = s.trace := rfl
@[simp] theorem State.illegalCommand_past (s : State) : (s.illegalCommand).past = s.past := rfl
@[simp] theorem State.illegalCommand_cmd (s : State) : (s.illegalCommand).cmd = s.cmd := rfl
@[simp] theorem State.illegalCommand_thr (s : State) : (s.illegalCommand).thr = s.thr := rfl
@[simp] theorem State.illegalCommand_now (s : State) : (s.illegalCommand).now = s.now := rfl
@[simp] theorem State.illegalCommand_host (s : State) : (s.illegalCommand).host = s.host := rfl
@[simp] theorem State.illegalCommand_tlRead (s : State) (j : Slot) : (s.illegalCommand).tlRead j = s.tlRead j := rfl

@[simp] theorem State.present_cfg (s : State) (c : Command) : (s.present c).cfg = s.cfg := rfl
@[simp] theorem State.present_tl (s : State) (c : Command) : (s.present c).tl = s.tl := rfl
@[simp] theorem State.present_dir (s : State) (c : Command) : (s.present c).dir = s.dir := rfl
@[simp] theorem State.present_fsTime (s : State) (c : Command) : (s.present c).fsTime = s.fsTime := rfl
@[simp] theorem State.present_beepTime (s : State) (c : Command) : (s.present c).beepTime = s.beepTime := rfl
@[simp] theorem State.present_pin (s : State) (c : Command) : (s.present c).pin = s.pin := rfl
@[simp] theorem State.present_resp (s : State) (c : Command) : (s.present c).resp = s.resp := rfl
@[simp] theorem State.present_encMask (s : State) (c : Command) : (s.present c).encMask = s.encMask := rfl
@[simp] theorem State.present_haz (s : State) (c : Command) : (s.present c).haz = s.haz := rfl
@[simp] theorem State.present_faults (s : State) (c : Command) : (s.present c).faults = s.faults := rfl
@[simp] theorem State.present_trace (s : State) (c : Command) : (s.present c).trace = s.trace := rfl
@[simp] theorem State.present_past (s : State) (c : Command) : (s.present c).past = s.past := rfl
@[simp] theorem State.present_cmd (s : State) (c : Command) : (s.present c).cmd = c.cmd := rfl
@[simp] theorem State.present_thr (s : State) (c : Command) : (s.present c).thr = c.thr := rfl
@[simp] theorem State.present_now (s : State) (c : Command) : (s.present c).now = c.now := rfl
@[simp] theorem State.present_host (s : State) (c : Command) : (s.present c).host = s.host := rfl
@[simp] theorem State.present_tlRead (s : State) (c : Command) (j : Slot) : (s.present c).tlRead j = s.tlRead j := rfl

@[simp] theorem State.setHost_cfg (s : State) (h : List HostInput) : (s.setHost h).cfg = s.cfg := rfl
@[simp] theorem State.setHost_tl (s : State) (h : List HostInput) : (s.setHost h).tl = s.tl := rfl
@[simp] theorem State.setHost_dir (s : State) (h : List HostInput) : (s.setHost h).dir = s.dir := rfl
@[simp] theorem State.setHost_fsTime (s : State) (h : List HostInput) : (s.setHost h).fsTime = s.fsTime := rfl
@[simp] theorem State.setHost_beepTime (s : State) (h : List HostInput) : (s.setHost h).beepTime = s.beepTime := rfl
@[simp] theorem State.setHost_pin (s : State) (h : List HostInput) : (s.setHost h).pin = s.pin := rfl
@[simp] theorem State.setHost_resp (s : State) (h : List HostInput) : (s.setHost h).resp = s.resp := rfl
@[simp] theorem State.setHost_encMask (s : State) (h : List HostInput) : (s.setHost h).encMask = s.encMask := rfl
@[simp] theorem State.setHost_haz (s : State) (h : List HostInput) : (s.setHost h).haz = s.haz := rfl
@[simp] theorem State.setHost_faults (s : State) (h : List HostInput) : (s.setHost h).faults = s.faults := rfl
@[simp] theorem State.setHost_trace (s : State) (h : List HostInput) : (s.setHost h).trace = s.trace := rfl
@[simp] theorem State.setHost_past (s : State) (h : List HostInput) : (s.setHost h).past = s.past := rfl
@[simp] theorem State.setHost_cmd (s : State) (h : List HostInput) : (s.setHost h).cmd = s.cmd := rfl
@[simp] theorem State.setHost_thr (s : State) (h : List HostInput) : (s.setHost h).thr = s.thr := rfl
@[simp] theorem State.setHost_now (s : State) (h : List HostInput) : (s.setHost h).now = s.now := rfl
@[simp] theorem State.setHost_host (s : State) (h : List HostInput) : (s.setHost h).host = h := rfl
@[simp] theorem State.setHost_tlRead (s : State) (h : List HostInput) (j : Slot) : (s.setHost h).tlRead j = s.tlRead j := rfl

@[simp] theorem State.applyReset_cfg (s : State) : s.applyReset.cfg = s.cfg := rfl
@[simp] theorem State.applyReset_tl (s : State) : s.applyReset.tl = [] := rfl
@[simp] theorem State.applyReset_dir (s : State) : s.applyReset.dir = .forward := rfl
@[simp] theorem State.applyReset_fsTime (s : State) : s.applyReset.fsTime = BitVec.ofNat 32 s.cfg.fsTimeReset := rfl
@[simp] theorem State.applyReset_beepTime (s : State) : s.applyReset.beepTime = 0 := rfl
@[simp] theorem State.applyReset_pin (s : State) : s.applyReset.pin = 0 := rfl
@[simp] theorem State.applyReset_resp (s : State) : s.applyReset.resp = 0 := rfl
@[simp] theorem State.applyReset_encMask (s : State) : s.applyReset.encMask = 0 := rfl
@[simp] theorem State.applyReset_haz (s : State) : s.applyReset.haz = [] := rfl
@[simp] theorem State.applyReset_faults (s : State) : s.applyReset.faults = [] := rfl
@[simp] theorem State.applyReset_trace (s : State) : s.applyReset.trace = [] := rfl
@[simp] theorem State.applyReset_past (s : State) : s.applyReset.past = s.past ++ [s.trace] := rfl
@[simp] theorem State.applyReset_cmd (s : State) : s.applyReset.cmd = s.cmd := rfl
@[simp] theorem State.applyReset_thr (s : State) : s.applyReset.thr = s.thr := rfl
@[simp] theorem State.applyReset_now (s : State) : s.applyReset.now = s.now := rfl
@[simp] theorem State.applyReset_host (s : State) : s.applyReset.host = s.host := rfl

end Sys2Proof.Machine
end

