-- ==== Sys2Proof/Laws/Memory.lean ====
section
/-! SUPPORT. The timeline's memory: read after write, the canonical form, and canonical sets. -/
namespace Sys2Proof.Machine

theorem mem_insertBy {α : Type} {key : α → Nat} {a b : α} {l : List α} (h : b ∈ insertBy key a l) : b = a ∨ b ∈ l := by
  induction l with
  | nil => simpa [insertBy] using h
  | cons c l ih =>
    simp only [insertBy] at h
    split at h
    · simpa using h
    · split at h
      · rcases List.mem_cons.1 h with h | h
        · exact .inl h
        · exact .inr (List.mem_cons_of_mem _ h)
      · rcases List.mem_cons.1 h with h | h
        · exact .inr (h ▸ List.mem_cons_self)
        · exact (ih h).imp_right (List.mem_cons_of_mem _)

theorem self_mem_insertBy {α : Type} (key : α → Nat) (a : α) (l : List α) : a ∈ insertBy key a l := by
  induction l with
  | nil => simp [insertBy]
  | cons c l ih =>
    simp only [insertBy]
    split
    · simp
    · split <;> simp [ih]

/-- With a key that tells the elements apart, inserting loses nothing. -/
theorem mem_insertBy_of_mem {α : Type} {key : α → Nat} (inj : ∀ a b, key a = key b → a = b) {a b : α} {l : List α}
    (h : b ∈ l) : b ∈ insertBy key a l := by
  induction l with
  | nil => cases h
  | cons c l ih =>
    simp only [insertBy]
    split
    · exact List.mem_cons_of_mem _ h
    · split
      · rename_i e
        rcases List.mem_cons.1 h with h | h
        · rw [inj a c e, h]; simp
        · exact List.mem_cons_of_mem _ h
      · rcases List.mem_cons.1 h with h | h
        · simp [h]
        · exact List.mem_cons_of_mem _ (ih h)

theorem insertBy_pairwise {α : Type} {key : α → Nat} {a : α} {l : List α} (h : l.Pairwise (fun x y => key x < key y)) :
    (insertBy key a l).Pairwise (fun x y => key x < key y) := by
  induction l with
  | nil => simp [insertBy]
  | cons c l ih =>
    obtain ⟨hc, hl⟩ := List.pairwise_cons.1 h
    simp only [insertBy]
    split
    · rename_i lt
      refine List.pairwise_cons.2 ⟨fun x hx => ?_, h⟩
      rcases List.mem_cons.1 hx with rfl | hx
      · exact lt
      · exact lt.trans (hc x hx)
    · split
      · rename_i e
        exact List.pairwise_cons.2 ⟨fun x hx => e ▸ hc x hx, hl⟩
      · refine List.pairwise_cons.2 ⟨fun x hx => ?_, ih hl⟩
        rcases mem_insertBy hx with rfl | hx
        · omega
        · exact hc x hx

/-- Two strictly rising lists with the same elements are the same list. -/
theorem eq_of_pairwise_of_mem {α : Type} {key : α → Nat} {l m : List α} (hl : l.Pairwise (fun x y => key x < key y))
    (hm : m.Pairwise (fun x y => key x < key y)) (h : ∀ x, x ∈ l ↔ x ∈ m) : l = m := by
  induction l generalizing m with
  | nil =>
    cases m with
    | nil => rfl
    | cons b m => exact absurd ((h b).2 (by simp)) (by simp)
  | cons a l ih =>
    cases m with
    | nil => exact absurd ((h a).1 (by simp)) (by simp)
    | cons b m =>
      obtain ⟨ha, hl⟩ := List.pairwise_cons.1 hl
      obtain ⟨hb, hm'⟩ := List.pairwise_cons.1 hm
      have hab : a = b := by
        rcases List.mem_cons.1 ((h a).1 (by simp)) with e | e
        · exact e
        · rcases List.mem_cons.1 ((h b).2 (by simp)) with e' | e'
          · exact e'.symm
          · have := ha b e'; have := hb a e; omega
      subst hab
      refine congrArg _ (ih hl hm' fun x => ⟨fun hx => ?_, fun hx => ?_⟩)
      · rcases List.mem_cons.1 ((h x).1 (List.mem_cons_of_mem _ hx)) with e | e
        · have := ha x hx; subst e; omega
        · exact e
      · rcases List.mem_cons.1 ((h x).2 (List.mem_cons_of_mem _ hx)) with e | e
        · have := hb x hx; subst e; omega
        · exact e

theorem Hazard.key_injective (a b : Hazard) (h : a.key = b.key) : a = b := by
  cases a; cases b; simp only [Hazard.key] at h; exact congrArg _ (Fin.ext h)

theorem ModelFault.key_injective (a b : ModelFault) (h : a.key = b.key) : a = b := by
  cases a with
  | illegalCommand v =>
    cases b with
    | illegalCommand w => simp only [ModelFault.key] at h; exact congrArg _ (BitVec.eq_of_toNat_eq (by omega))
    | throttleNan w => simp only [ModelFault.key] at h; have := v.isLt; have := w.isLt; omega
  | throttleNan v =>
    cases b with
    | illegalCommand w => simp only [ModelFault.key] at h; have := v.isLt; have := w.isLt; omega
    | throttleNan w => simp only [ModelFault.key] at h; exact congrArg _ (BitVec.eq_of_toNat_eq (by omega))

theorem Memory.read_filter_ne (m : List Host.Cell) {i j : Nat} (h : j ≠ i) :
    Memory.read (m.filter (fun c => c.1 ≠ i)) j = Memory.read m j := by
  induction m with
  | nil => rfl
  | cons c m ih =>
    obtain ⟨a, v⟩ := c
    by_cases ha : a = i
    · subst ha; simp_all [Memory.read, Ne.symm h]
    · simp_all [Memory.read]

theorem Memory.read_filter_self (m : List Host.Cell) (i : Nat) :
    Memory.read (m.filter (fun c => c.1 ≠ i)) i = unlistedSlot := by
  induction m with
  | nil => rfl
  | cons c m ih =>
    obtain ⟨a, v⟩ := c
    by_cases ha : a = i
    · simp_all
    · simp_all [Memory.read]

theorem Memory.read_insertBy_self (m : List Host.Cell) (i : Nat) (v : Byte) :
    Memory.read (insertBy Prod.fst (i, v) m) i = v := by
  induction m with
  | nil => simp [insertBy, Memory.read]
  | cons c m ih =>
    obtain ⟨a, w⟩ := c
    simp only [insertBy]
    split
    · simp [Memory.read]
    · split
      · simp [Memory.read]
      · rename_i h; simp only [Memory.read]; rw [if_neg (fun e => h e.symm), ih]

theorem Memory.read_insertBy_ne (m : List Host.Cell) {i j : Nat} (v : Byte) (h : j ≠ i) :
    Memory.read (insertBy Prod.fst (i, v) m) j = Memory.read m j := by
  induction m with
  | nil => simp [insertBy, Memory.read, Ne.symm h]
  | cons c m ih =>
    obtain ⟨a, w⟩ := c
    simp only [insertBy]
    split
    · simp [Memory.read, Ne.symm h]
    · split
      · rename_i _ e; have e : i = a := e; subst e; simp [Memory.read, Ne.symm h]
      · simp only [Memory.read, ih]

/-- Read after write, at the written address. -/
@[simp] theorem Memory.read_write_self (m : List Host.Cell) (i : Nat) (v : Byte) :
    Memory.read (Memory.write m i v) i = v := by
  simp only [Memory.write]
  split
  · rename_i h; rw [read_filter_self, h]
  · exact read_insertBy_self _ _ _

/-- A write leaves every other address alone. -/
theorem Memory.read_write_ne (m : List Host.Cell) {i j : Nat} (v : Byte) (h : j ≠ i) :
    Memory.read (Memory.write m i v) j = Memory.read m j := by
  simp only [Memory.write]
  split
  · exact read_filter_ne m h
  · rw [read_insertBy_ne _ _ h, read_filter_ne m h]

/-- A write of a slot keeps the canonical form. -/
theorem Memory.wf_write {m : List Host.Cell} (hm : Memory.wf m) {i : Nat} (hi : i < 64) (v : Byte) :
    Memory.wf (Memory.write m i v) := by
  have hf : Memory.wf (m.filter (fun c => c.1 ≠ i)) :=
    ⟨hm.1.filter _, fun c hc => hm.2 c (List.mem_of_mem_filter hc)⟩
  simp only [Memory.write]
  split
  · exact hf
  · refine ⟨insertBy_pairwise hf.1, fun c hc => ?_⟩
    rcases mem_insertBy hc with rfl | hc
    · exact ⟨hi, by assumption⟩
    · exact hf.2 c hc

theorem Memory.wf_nil : Memory.wf [] := ⟨List.Pairwise.nil, by simp⟩

theorem Memory.read_eq_of_mem {m : List Host.Cell} (hm : m.Pairwise (fun c d => c.1 < d.1)) {a : Nat} {v : Byte}
    (h : (a, v) ∈ m) : Memory.read m a = v := by
  induction m with
  | nil => cases h
  | cons c m ih =>
    obtain ⟨hc, hm⟩ := List.pairwise_cons.1 hm
    rcases List.mem_cons.1 h with h | h
    · subst h; simp [Memory.read]
    · have := hc _ h
      simp only [Memory.read]
      rw [if_neg (by omega), ih hm h]

theorem Memory.mem_of_read {m : List Host.Cell} {a : Nat} (h : Memory.read m a ≠ unlistedSlot) :
    (a, Memory.read m a) ∈ m := by
  induction m with
  | nil => exact absurd rfl h
  | cons c m ih =>
    obtain ⟨b, w⟩ := c
    simp only [Memory.read] at h ⊢
    split
    · rename_i e; subst e; simp
    · rename_i e; rw [if_neg e] at h; exact List.mem_cons_of_mem _ (ih h)

theorem Memory.mem_iff_read {m : List Host.Cell} (hm : Memory.wf m) (c : Host.Cell) :
    c ∈ m ↔ c.1 < 64 ∧ Memory.read m c.1 = c.2 ∧ c.2 ≠ unlistedSlot := by
  constructor
  · intro h; exact ⟨(hm.2 c h).1, read_eq_of_mem hm.1 h, (hm.2 c h).2⟩
  · rintro ⟨_, hr, hne⟩
    have := mem_of_read (m := m) (a := c.1) (by rw [hr]; exact hne)
    rwa [hr] at this

/-- Canonical memories that read alike at every slot are equal data. -/
theorem Memory.eq_of_read {m n : List Host.Cell} (hm : Memory.wf m) (hn : Memory.wf n)
    (h : ∀ i : Slot, Memory.read m i.val = Memory.read n i.val) : m = n := by
  refine eq_of_pairwise_of_mem hm.1 hn.1 fun c => ?_
  rw [mem_iff_read hm, mem_iff_read hn]
  exact and_congr_right fun hc => by rw [h ⟨c.1, hc⟩]

@[simp] theorem State.tlRead_tlWrite_self (s : State) (i : Slot) (v : Byte) : (s.tlWrite i v).tlRead i = v :=
  Memory.read_write_self _ _ _

theorem State.tlRead_tlWrite_ne (s : State) {i j : Slot} (v : Byte) (h : j ≠ i) :
    (s.tlWrite i v).tlRead j = s.tlRead j :=
  Memory.read_write_ne _ _ (fun e => h (Fin.ext e))

/-- Every slot after a write. -/
theorem State.tlRead_tlWrite (s : State) (i j : Slot) (v : Byte) :
    (s.tlWrite i v).tlRead j = if j = i then v else s.tlRead j := by
  split
  · rename_i h; subst h; simp
  · rename_i h; exact s.tlRead_tlWrite_ne v h

/-- Every slot after an OR write (R38). -/
theorem State.tlRead_tlOr (s : State) (i j : Slot) (ch : Channel) :
    (s.tlOr i ch).tlRead j = if j = i then s.tlRead i ||| laneBit ch else s.tlRead j :=
  s.tlRead_tlWrite i j _

theorem State.wf_tlWrite {s : State} (h : Memory.wf s.tl) (i : Slot) (v : Byte) : Memory.wf (s.tlWrite i v).tl :=
  Memory.wf_write h i.isLt v

theorem State.wf_tlOr {s : State} (h : Memory.wf s.tl) (i : Slot) (ch : Channel) : Memory.wf (s.tlOr i ch).tl :=
  Memory.wf_write h i.isLt _

end Sys2Proof.Machine
end

