-- ==== Sys2Proof/Laws/Encoder.lean ====
section
/-! SUPPORT. What rendering a frame and the ENCODE body do to every slot and every field. -/
namespace Sys2Proof.Machine

theorem laneBit_getLsbD : ∀ ch ch' : Channel, (laneBit ch).getLsbD ch'.val = decide (ch' = ch) := by decide

theorem laneBit_high : ∀ ch : Channel, (laneBit ch).extractLsb' 4 4 = 0 := by decide

/-- Every lane of a 4-bit vector after one is set. -/
theorem setLane_getLsbD : ∀ (v : BitVec 4) (ch ch' : Channel) (b : Bool),
    (setLane v ch b).getLsbD ch'.val = if ch' = ch then b else v.getLsbD ch'.val := by decide +kernel

theorem slotOf_val (k : BitIx) (j : Fin 4) : (slotOf k j).val = 4 * k.val + j.val := rfl

theorem slotOf_inj {k k' : BitIx} {j j' : Fin 4} : slotOf k j = slotOf k' j' ↔ k = k' ∧ j = j' := by
  simp only [Fin.ext_iff, slotOf_val]; omega

/-- Every slot is a quarter of a protocol bit (R37). -/
theorem exists_slotOf (i : Slot) : ∃ k j, i = slotOf k j :=
  ⟨⟨i.val / 4, by omega⟩, ⟨i.val % 4, by omega⟩, Fin.ext (by simp only [slotOf_val]; omega)⟩

theorem pulse_slotOf (w : BitVec 16) (k : BitIx) (j : Fin 4) :
    pulse w (slotOf k j) = if j = 0 then true else if j = 3 then false else frameBit w k := by
  have hd : (4 * k.val + j.val) / 4 = k.val := by omega
  have hm : (4 * k.val + j.val) % 4 = j.val := by omega
  simp only [pulse, slotOf_val, hm, hd]
  fin_cases j <;> rfl

/-- One protocol bit's rendering, slot by slot (R68). -/
theorem renderBit_tlRead (ch : Channel) (w : BitVec 16) (s : State) (k k' : BitIx) (j : Fin 4) :
    (renderBit ch w s k).tlRead (slotOf k' j) =
      s.tlRead (slotOf k' j) ||| if k' = k ∧ pulse w (slotOf k' j) = true then laneBit ch else 0 := by
  by_cases hk : k' = k
  · subst hk
    simp only [pulse_slotOf, renderBit, true_and]
    fin_cases j <;> cases frameBit w k' <;> simp [State.tlRead_tlOr, slotOf_inj]
  · simp only [renderBit, hk, false_and, if_false]
    split <;> simp [State.tlRead_tlOr, slotOf_inj, hk]

theorem renderBits_tlRead (ch : Channel) (w : BitVec 16) (l : List BitIx) (s : State) (k : BitIx) (j : Fin 4) :
    (l.foldl (renderBit ch w) s).tlRead (slotOf k j) =
      s.tlRead (slotOf k j) ||| if k ∈ l ∧ pulse w (slotOf k j) = true then laneBit ch else 0 := by
  induction l generalizing s with
  | nil => simp
  | cons a l ih =>
    simp only [List.foldl_cons, ih, renderBit_tlRead, List.mem_cons]
    by_cases h3 : pulse w (slotOf k j) = true
    · by_cases h1 : k = a <;> by_cases h2 : k ∈ l <;> simp [h1, h2, h3, BitVec.or_assoc] <;> simp_all
    · simp [h3]

/-- Rendering a frame ORs the channel's bit into the slots of the frame's pulses, and writes nothing else (R68). -/
theorem renderFrame_tlRead (s : State) (ch : Channel) (w : BitVec 16) (i : Slot) :
    (renderFrame s ch w).tlRead i = s.tlRead i ||| if pulse w i = true then laneBit ch else 0 := by
  obtain ⟨k, j, rfl⟩ := exists_slotOf i
  rw [renderFrame, renderBits_tlRead]
  simp [allBits, List.mem_finRange]

theorem renderBit_frame (ch : Channel) (w : BitVec 16) (s : State) (k : BitIx) :
    renderBit ch w s k = { s with tl := (renderBit ch w s k).tl } := by
  simp only [renderBit]; split <;> rfl

theorem renderBits_frame (ch : Channel) (w : BitVec 16) (l : List BitIx) (s : State) :
    l.foldl (renderBit ch w) s = { s with tl := (l.foldl (renderBit ch w) s).tl } := by
  induction l generalizing s with
  | nil => rfl
  | cons a l ih =>
    have h := renderBit_frame ch w s a
    have h' := ih (renderBit ch w s a)
    simp only [List.foldl_cons]
    generalize List.foldl (renderBit ch w) (renderBit ch w s a) l = t at h' ⊢
    generalize renderBit ch w s a = s1 at h h'
    exact h'.trans (by rw [h])

/-- Rendering changes the timeline only. -/
theorem renderFrame_frame (s : State) (ch : Channel) (w : BitVec 16) :
    renderFrame s ch w = { s with tl := (renderFrame s ch w).tl } := renderBits_frame _ _ _ _

theorem wf_renderBit {s : State} (h : Memory.wf s.tl) (ch : Channel) (w : BitVec 16) (k : BitIx) :
    Memory.wf (renderBit ch w s k).tl := by
  simp only [renderBit]
  split
  · exact State.wf_tlOr (State.wf_tlOr (State.wf_tlOr h _ _) _ _) _ _
  · exact State.wf_tlOr h _ _

theorem wf_renderFrame {s : State} (h : Memory.wf s.tl) (ch : Channel) (w : BitVec 16) :
    Memory.wf (renderFrame s ch w).tl := by
  simp only [renderFrame]
  generalize allBits = l
  induction l generalizing s with
  | nil => exact h
  | cons a l ih => exact ih (wf_renderBit h ch w a)

/-- The hazards after an encode of `ch` (R71). -/
theorem noteEncode_eq (s : State) (ch : Channel) :
    noteEncode s ch =
      { s with
        encMask := setLane s.encMask ch true
        haz := if s.encMask.getLsbD ch.val then insertBy Hazard.key (.doubleEncode ch) s.haz else s.haz } := by
  simp only [noteEncode]; split <;> rfl

/-- The ENCODE body changes the timeline, `ENC_MASK` and `HAZ`, and nothing else (R70). -/
theorem encodeBody_eq (ch : Channel) (value : Value) (tlm : Bool) (s : State) :
    encodeBody ch value tlm s =
      { s with
        tl := (renderFrame s ch (frame value tlm)).tl
        encMask := setLane s.encMask ch true
        haz := if s.encMask.getLsbD ch.val then insertBy Hazard.key (.doubleEncode ch) s.haz else s.haz } := by
  rw [encodeBody, noteEncode_eq, renderFrame_frame]

/-- Every slot after an ENCODE body (R68, R70). -/
theorem encodeBody_tlRead (ch : Channel) (value : Value) (tlm : Bool) (s : State) (i : Slot) :
    (encodeBody ch value tlm s).tlRead i = s.tlRead i ||| if pulse (frame value tlm) i = true then laneBit ch else 0 := by
  rw [encodeBody_eq]; exact renderFrame_tlRead s ch _ i

/-- Every lane after an ENCODE body: its own lane gains the frame's pulses, the others are as they were (R72). -/
theorem encodeBody_lane (ch ch' : Channel) (value : Value) (tlm : Bool) (s : State) (i : Slot) :
    ((encodeBody ch value tlm s).tlRead i).getLsbD ch'.val =
      ((s.tlRead i).getLsbD ch'.val || (decide (ch' = ch) && pulse (frame value tlm) i)) := by
  rw [encodeBody_tlRead]
  by_cases h : pulse (frame value tlm) i = true <;> simp [h, laneBit_getLsbD]

end Sys2Proof.Machine
end

