-- ==== Sys2Proof/Laws/Transmitter.lean ====
section
/-! SUPPORT. What sending a slot, the whole timeline, and the TRANSMIT body do to every slot and every field. -/
namespace Sys2Proof.Machine

/-- The four writes of a slot leave each line at its bit of the slot (R75). -/
theorem setLanes_eq (p : BitVec 4) (d : Byte) :
    setLane (setLane (setLane (setLane p 0 (d.getLsbD 0)) 1 (d.getLsbD 1)) 2 (d.getLsbD 2)) 3 (d.getLsbD 3) =
      d.setWidth 4 := by
  refine BitVec.eq_of_getLsbD_eq fun j hj => ?_
  have h : ∀ j : Channel, (setLane (setLane (setLane (setLane p 0 (d.getLsbD 0)) 1 (d.getLsbD 1)) 2 (d.getLsbD 2)) 3
      (d.getLsbD 3)).getLsbD j.val = (d.setWidth 4).getLsbD j.val := by
    intro j
    simp only [setLane_getLsbD]
    fin_cases j <;> simp
  exact h ⟨j, hj⟩

/-- Sending one slot: it is cleared, the lines take its bits, its four events join the trace (R75). -/
theorem sendSlot_eq (s : State) (i : Slot) :
    sendSlot s i =
      { s with
        tl := Memory.write s.tl i.val 0
        pin := (s.tlRead i).setWidth 4
        trace := s.trace ++ slotEvents s i } := by
  rw [← setLanes_eq s.pin (s.tlRead i)]
  simp [sendSlot, slotEvents, allChannels, List.finRange_succ, State.pinWrite, State.setPin, State.emit, State.tlWrite]

theorem sendSlot_tlRead (s : State) (i j : Slot) :
    (sendSlot s i).tlRead j = if j = i then 0 else s.tlRead j := by
  rw [sendSlot_eq]; exact s.tlRead_tlWrite i j 0

/-- Sending a list of different slots. -/
theorem sendSlots_eq (l : List Slot) (hl : l.Nodup) (s : State) :
    l.foldl sendSlot s =
      { s with
        tl := (l.foldl sendSlot s).tl
        pin := (l.getLast?.map fun i => (s.tlRead i).setWidth 4).getD s.pin
        trace := s.trace ++ l.flatMap (slotEvents s) } := by
  induction l generalizing s with
  | nil => simp
  | cons a l ih =>
    obtain ⟨ha, hl⟩ := List.nodup_cons.1 hl
    have hr : ∀ i ∈ l, (sendSlot s a).tlRead i = s.tlRead i := fun i hi => by
      have hne : i ≠ a := by rintro rfl; exact ha hi
      rw [sendSlot_tlRead, if_neg hne]
    have he : l.flatMap (slotEvents (sendSlot s a)) = l.flatMap (slotEvents s) :=
      List.flatMap_congr fun i hi => by simp only [slotEvents, hr i hi]
    simp only [List.foldl_cons]
    rw [ih hl, he]
    cases hlast : l.getLast? with
    | none =>
      have : l = [] := List.getLast?_eq_none_iff.1 hlast
      subst this
      simp [sendSlot_eq]
    | some b =>
      have hb : b ∈ l := List.mem_of_getLast? hlast
      have hc : (a :: l).getLast? = some b := by rw [List.getLast?_cons, hlast]; rfl
      simp only [hc, Option.map_some, Option.getD_some, hr b hb, List.flatMap_cons, ← List.append_assoc]
      rw [sendSlot_eq]

theorem sendSlots_tlRead (l : List Slot) (s : State) (j : Slot) :
    (l.foldl sendSlot s).tlRead j = if j ∈ l then 0 else s.tlRead j := by
  induction l generalizing s with
  | nil => simp
  | cons a l ih =>
    simp only [List.foldl_cons, ih, sendSlot_tlRead, List.mem_cons]
    by_cases h1 : j ∈ l <;> by_cases h2 : j = a <;> simp [h1, h2]

theorem wf_sendSlots (l : List Slot) {s : State} (h : Memory.wf s.tl) : Memory.wf (l.foldl sendSlot s).tl := by
  induction l generalizing s with
  | nil => exact h
  | cons a l ih => exact ih (by rw [sendSlot_eq]; exact Memory.wf_write h a.isLt 0)

theorem transmitBody_def (s : State) :
    transmitBody s = ((sendAll s).emit (.txDone (sendAll s).encMask)).clearEncMask := rfl

theorem transmitBody_tl_eq (s : State) : (transmitBody s).tl = (sendAll s).tl := by
  rw [transmitBody_def, State.clearEncMask_tl, State.emit_tl]

/-- Every slot is 0 after a TRANSMIT body (R78). -/
theorem transmitBody_tlRead (s : State) (j : Slot) : (transmitBody s).tlRead j = 0 := by
  have := sendSlots_tlRead allSlots s j
  rw [if_pos (by simp [allSlots, List.mem_finRange])] at this
  simp only [State.tlRead, transmitBody_tl_eq]
  simpa only [State.tlRead, sendAll] using this

/-- The TRANSMIT body in one equation: the timeline is sent and cleared, each line ends at its bit of slot 63, the 256
events and `TXDONE` join the trace, `ENC_MASK` is cleared, and nothing else changes (R75, R76). -/
theorem transmitBody_eq (s : State) :
    transmitBody s =
      { s with
        tl := (transmitBody s).tl
        pin := (s.tlRead 63).setWidth 4
        trace := s.trace ++ transmitEvents s ++ [.txDone s.encMask]
        encMask := 0 } := by
  have h := sendSlots_eq allSlots (List.nodup_finRange 64) s
  rw [show allSlots.getLast? = some 63 by decide, Option.map_some, Option.getD_some] at h
  rw [transmitBody_tl_eq, transmitBody_def]
  change sendAll s = _ at h
  unfold transmitEvents
  generalize allSlots.flatMap (slotEvents s) = events at h ⊢
  generalize sendAll s = t at h ⊢
  rw [h]
  simp only [State.emit, State.clearEncMask]

/-- The events of a TRANSMIT depend on the timeline only. -/
theorem transmitEvents_of_tl {s t : State} (h : s.tl = t.tl) : transmitEvents s = transmitEvents t := by
  have hr : ∀ i, s.tlRead i = t.tlRead i := fun i => by rw [State.tlRead, h, State.tlRead]
  have he : slotEvents s = slotEvents t := funext fun i => by rw [slotEvents, hr i, slotEvents]
  rw [transmitEvents, he, transmitEvents]

/-- The events of a TRANSMIT are output events (R76). -/
theorem transmitEvents_pinWrites (s : State) : (transmitEvents s).filter TraceRec.isPinWrite = transmitEvents s := by
  rw [List.filter_eq_self]
  intro e he
  simp only [transmitEvents, slotEvents, List.mem_flatMap, List.mem_map] at he
  obtain ⟨_, _, _, _, rfl⟩ := he
  rfl

/-- There are 256 of them (R76). -/
theorem transmitEvents_length (s : State) : (transmitEvents s).length = 256 := by
  have h : ∀ i, (slotEvents s i).length = 4 := fun i => by rw [slotEvents, List.length_map]; rfl
  simp only [transmitEvents, List.length_flatMap, h, List.map_const']
  rfl

theorem encodeBody_trace (ch : Channel) (v : Value) (tlm : Bool) (s : State) :
    (encodeBody ch v tlm s).trace = s.trace := by rw [encodeBody_eq]

theorem transmitBody_trace (s : State) :
    (transmitBody s).trace = s.trace ++ (transmitEvents s ++ [.txDone s.encMask]) := by
  rw [transmitBody_eq, List.append_assoc]

/-- A TRANSMIT leaves a canonical timeline empty (R29 b, R78). -/
theorem transmitBody_tl {s : State} (h : Memory.wf s.tl) : (transmitBody s).tl = [] := by
  have hw : Memory.wf (transmitBody s).tl := by
    rw [transmitBody_tl_eq]; exact wf_sendSlots allSlots h
  exact Memory.eq_of_read hw Memory.wf_nil fun i => transmitBody_tlRead s i

end Sys2Proof.Machine
end

