-- ==== Sys2Proof/Laws/Commands.lean ====
section
/-! SUPPORT. What the commands answer, and that the response word has no part in the shared bodies. -/
namespace Sys2Proof.Machine

/-- MAP without a NaN (42_throttle_failsafe.md R96). -/
theorem exec_map_of_number (ch : Channel) (gnd fs : Bool) (s : State) (hn : isNaN s.thr = false) :
    exec (.map ch gnd fs) s =
      .next ((s.setFsTime (s.latch fs).fsTime).setResp (mapResponse (s.latch fs).st (s.mapValue gnd fs))) := by
  simp [exec, execMap, hn]

/-- THROTTLE without a NaN (R97). -/
theorem exec_throttle_of_number (ch : Channel) (gnd fs : Bool) (s : State) (hn : isNaN s.thr = false) :
    exec (.throttle ch gnd fs) s =
      .next ((transmitIfLast ch (encodeBody ch (s.mapValue gnd fs) false (s.setFsTime (s.latch fs).fsTime))).setResp
        (mapResponse (s.latch fs).st (s.mapValue gnd fs))) := by
  simp [exec, execThrottle, hn]

/-- MAP and THROTTLE with a NaN (R88). -/
theorem exec_map_of_nan (ch : Channel) (gnd fs : Bool) (s : State) (hn : isNaN s.thr = true) :
    exec (.map ch gnd fs) s = .next s.throttleNan ∧ exec (.throttle ch gnd fs) s = .next s.throttleNan := by
  simp [exec, execMap, execThrottle, hn]

/-- A tick inside a window (43_beep.md R104). -/
theorem exec_beepTick_of_hit (fs : Bool) (s : State) {code : Value} (h : s.beepHit fs = some code) :
    exec (.beepTick fs) s =
      .next ((injectBeep code (s.setBeepTime (beepLatch fs s.now s.beepTime))).setResp
        (beepResponse true (s.beepState fs) code)) := by
  simp [exec, execBeepTick, h]

/-- A tick that sends nothing (R104). -/
theorem exec_beepTick_of_silent (fs : Bool) (s : State) (h : s.beepHit fs = none) :
    exec (.beepTick fs) s =
      .next ((s.setBeepTime (beepLatch fs s.now s.beepTime)).setResp (beepResponse false (s.beepState fs) 0)) := by
  simp [exec, execBeepTick, h]

/-- A beeping tick is inside a window exactly when the window table has a code (R102, R104). -/
theorem beepHit_of_elapsed {s : State} {e : Nat} (he : s.beepElapsed true = e) (h : s.cfg.beepTimeoutUs < e) :
    s.beepState true = .beeping ∧ s.beepHit true = windowCode s.cfg (e % beepPeriodUs) := by
  have hs : s.beepState true = .beeping := by simp [State.beepState, he, h]
  exact ⟨hs, by simp only [State.beepHit, hs, he]⟩

/-- What rendering writes depends on the timeline only. -/
theorem renderFrame_of_tl {s u : State} (h : s.tl = u.tl) (ch : Channel) (w : BitVec 16) :
    (renderFrame s ch w).tl = (renderFrame u ch w).tl := by
  simp only [renderFrame]
  generalize allBits = l
  induction l generalizing s u with
  | nil => exact h
  | cons k l ih =>
    refine ih ?_
    simp only [renderBit]
    split <;> simp [State.tlRead, h]

/-- What sending leaves of the timeline depends on the timeline only. -/
theorem transmitBody_of_tl {s u : State} (h : s.tl = u.tl) : (transmitBody s).tl = (transmitBody u).tl := by
  rw [transmitBody_tl_eq, transmitBody_tl_eq, sendAll, sendAll]
  generalize allSlots = l
  induction l generalizing s u with
  | nil => exact h
  | cons i l ih =>
    refine ih ?_
    rw [sendSlot_eq, sendSlot_eq, h]

/-- The ENCODE body does not read `RESP`. -/
theorem encodeBody_setResp (ch : Channel) (v : Value) (tlm : Bool) (s : State) (r : BitVec 16) :
    encodeBody ch v tlm (s.setResp r) = (encodeBody ch v tlm s).setResp r := by
  rw [encodeBody_eq, encodeBody_eq, renderFrame_of_tl (s := s.setResp r) (u := s) rfl]
  simp only [State.setResp, State.mk.injEq, true_and, and_true]; split <;> simp_all

/-- The TRANSMIT body does not read `RESP`. -/
theorem transmitBody_setResp (s : State) (r : BitVec 16) : transmitBody (s.setResp r) = (transmitBody s).setResp r := by
  rw [transmitBody_eq, transmitBody_eq s, transmitBody_of_tl (s := s.setResp r) (u := s) rfl,
    transmitEvents_of_tl (s := s.setResp r) (t := s) rfl]
  simp only [State.setResp, State.tlRead]

/-- The ENCODE body does not read the signals (30_encoding.md R54, R55). -/
theorem encodeBody_present (ch : Channel) (v : Value) (tlm : Bool) (s : State) (c : Command) :
    encodeBody ch v tlm (s.present c) = (encodeBody ch v tlm s).present c := by
  rw [encodeBody_eq, encodeBody_eq, renderFrame_of_tl (s := s.present c) (u := s) rfl]
  simp only [State.present, State.mk.injEq, true_and, and_true]; split <;> simp_all

/-- The TRANSMIT body does not read the signals (R54, R55). -/
theorem transmitBody_present (s : State) (c : Command) : transmitBody (s.present c) = (transmitBody s).present c := by
  rw [transmitBody_eq, transmitBody_eq s, transmitBody_of_tl (s := s.present c) (u := s) rfl,
    transmitEvents_of_tl (s := s.present c) (t := s) rfl]
  simp only [State.present, State.tlRead]

/-- Sending a beep does not read the signals (R54). -/
theorem injectBeep_present (code : Value) (s : State) (c : Command) :
    injectBeep code (s.present c) = (injectBeep code s).present c := by
  rw [injectBeep, injectBeep, ← transmitBody_present]
  congr 1
  generalize allChannels = l
  induction l generalizing s with
  | nil => rfl
  | cons a l ih => rw [List.foldl_cons, List.foldl_cons, encodeBody_present, ih]

/-- Sending a beep does not read `RESP`. -/
theorem injectBeep_setResp (code : Value) (s : State) (r : BitVec 16) :
    injectBeep code (s.setResp r) = (injectBeep code s).setResp r := by
  rw [injectBeep, injectBeep, ← transmitBody_setResp]
  congr 1
  generalize allChannels = l
  induction l generalizing s with
  | nil => rfl
  | cons a l ih => rw [List.foldl_cons, List.foldl_cons, encodeBody_setResp, ih]

/-- The ENCODE body does not read `DIR` (10_state.md R20, R24). -/
theorem encodeBody_setDir (ch : Channel) (v : Value) (tlm : Bool) (s : State) (d : Direction) :
    encodeBody ch v tlm (s.setDir d) = (encodeBody ch v tlm s).setDir d := by
  rw [encodeBody_eq, encodeBody_eq, renderFrame_of_tl (s := s.setDir d) (u := s) rfl]
  simp only [State.setDir, State.mk.injEq, true_and, and_true]; split <;> simp_all

/-- The TRANSMIT body does not read `DIR` (R20, R24). -/
theorem transmitBody_setDir (s : State) (d : Direction) : transmitBody (s.setDir d) = (transmitBody s).setDir d := by
  rw [transmitBody_eq, transmitBody_eq s, transmitBody_of_tl (s := s.setDir d) (u := s) rfl,
    transmitEvents_of_tl (s := s.setDir d) (t := s) rfl]
  simp only [State.setDir, State.tlRead]

/-- Sending a beep does not read `DIR` (R20, R24). -/
theorem injectBeep_setDir (code : Value) (s : State) (d : Direction) :
    injectBeep code (s.setDir d) = (injectBeep code s).setDir d := by
  rw [injectBeep, injectBeep, ← transmitBody_setDir]
  congr 1
  generalize allChannels = l
  induction l generalizing s with
  | nil => rfl
  | cons a l ih => rw [List.foldl_cons, List.foldl_cons, encodeBody_setDir, ih]

end Sys2Proof.Machine
end

