-- ==== Sys2Proof/Laws/Config.lean ====
section
/-! SUPPORT. A well-formed configuration passes every check (70_reset_and_hazards.md R131). -/
namespace Sys2Proof.Machine

theorem meetsR90_iff (c : Cfg) (d : Direction) : meetsR90 c d = true ↔ MeetsR90 c d := decide_eq_true_iff

/-- A configuration has no failing check exactly when it passes all seven. -/
theorem failingCheck_none (c : Cfg) :
    failingCheck c = none ↔ cfgProfileOk c = true ∧ cfgIdleOk c = true ∧ cfgTimeoutOk c = true ∧ cfgCodesOk c = true ∧
      cfgMapFnOk c = true ∧ cfgFsResetOk c = true ∧ cfgTimingOk c = true := by
  simp only [failingCheck]
  generalize cfgProfileOk c = a
  generalize cfgIdleOk c = b
  generalize cfgTimeoutOk c = d
  generalize cfgCodesOk c = e
  generalize cfgMapFnOk c = f
  generalize cfgFsResetOk c = g
  generalize cfgTimingOk c = h
  cases a <;> cases b <;> cases d <;> cases e <;> cases f <;> cases g <;> cases h <;> simp

theorem slowTolerance_lt {b : Nat} (h : 0 < b) : slowTolerance b < b := Nat.mod_lt _ h

/-- The open numbers pass `CFG_TIMING` (R131). -/
theorem openTiming_ok : meetsCfgTiming openTiming := by
  dsimp only [meetsCfgTiming, openTiming]
  have ht := slowTolerance_lt (b := 4 * (Config.timingSeed.slot + 1)) (by omega)
  have hd := Nat.mod_lt Config.timingSeed.deviation
    (show 0 < slowTolerance (4 * (Config.timingSeed.slot + 1)) / 4 + 1 by omega)
  generalize Config.timingSeed.deviation % (slowTolerance (4 * (Config.timingSeed.slot + 1)) / 4 + 1) = d at hd ⊢
  generalize slowTolerance (4 * (Config.timingSeed.slot + 1)) = tol at ht hd ⊢
  refine ⟨?_, ?_, ?_, ?_, ?_, ?_⟩ <;> (try split) <;> omega

/-- The timing parameters of a configuration that passes `CFG_TIMING`, stated or open. -/
theorem timingOf_ok {c : Cfg} (h : cfgTimingOk c = true) : meetsCfgTiming (timingOf c) := by
  simp only [cfgTimingOk] at h
  simp only [timingOf]
  cases hc : c.timing with
  | unstated => exact openTiming_ok
  | given t => rw [hc] at h; exact of_decide_eq_true h

/-- The slow profile is the slower one (R131, log 3). -/
theorem bitFast_lt_bitSlow {t : Timing} (h : meetsCfgTiming t) : t.bitFast < t.bitSlow := by
  have := slowTolerance_lt h.1
  have := h.2.2.2.2.2
  omega

/-- With `BIDIR = off` no direction changes `MAP_FN` (R24). -/
theorem mapFn_of_unidirectional {c : Cfg} (h : c.bidir = false) (d e : Direction) (t : Word) :
    mapFn c d t = mapFn c e t := by
  simp only [mapFn, mapDir, h, referenceMap, rangeLo]
  rfl

end Sys2Proof.Machine
end

