-- ==== Sys2Proof/Laws/Receiver.lean ====
section
/-! SUPPORT. A receiver recovers the bits it is sent (40_frame_encoder.md R74). -/
namespace Sys2Proof.Machine

/-- Bit `15-k` of the recovered frame is the level of slot `4k+1`. -/
theorem frameBit_recoverFrame (level : Slot → Bool) (k : BitIx) :
    frameBit (recoverFrame level) k = level (slotOf k 1) := by
  have h : ∀ f : BitIx → Bool, ∀ k : BitIx,
      frameBit (allBits.foldl (fun w k => w <<< 1 ||| (BitVec.ofBool (f k)).setWidth 16) 0) k = f k := by
    intro f k
    fin_cases k <;> simp [frameBit, allBits, List.finRange_succ]
  exact h (fun k => level (slotOf k 1)) k

/-- Two frames with the same protocol bits are equal. -/
theorem eq_of_frameBit {v w : BitVec 16} (h : ∀ k : BitIx, frameBit v k = frameBit w k) : v = w := by
  refine BitVec.eq_of_getLsbD_eq fun i hi => ?_
  have := h ⟨15 - i, by omega⟩
  simp only [frameBit] at this
  rwa [show 15 - (15 - i) = i by omega] at this

/-- The level of a slot among the events of a whole TRANSMIT (R77). -/
theorem levelIn_transmitEvents (s : State) (i : Slot) (ch : Channel) :
    levelIn (transmitEvents s) i ch = (s.tlRead i).getLsbD ch.val := by
  rw [Bool.eq_iff_iff]
  simp only [levelIn, transmitEvents, slotEvents, allSlots, allChannels, List.any_eq_true, List.mem_flatMap, List.mem_map,
    List.mem_finRange, true_and, decide_eq_true_eq]
  constructor
  · rintro ⟨r, ⟨i', ch', h1⟩, h2⟩
    rw [h2] at h1
    injection h1 with e1 e2 e3
    subst e1; subst e2; exact e3
  · intro h
    exact ⟨_, ⟨i, ch, by rw [h]⟩, rfl⟩

theorem levelIn_append (a b : List TraceRec) (i : Slot) (ch : Channel) :
    levelIn (a ++ b) i ch = (levelIn a i ch || levelIn b i ch) := by
  simp [levelIn]

end Sys2Proof.Machine
end

