-- ==== Sys2Proof/Laws/Lanes.lean ====
section
/-! SUPPORT. Lanes of the timeline, canonical encodes, and what the invariant says of a lane (40_frame_encoder.md R72,
R74). -/
namespace Sys2Proof.Machine

/-- Every lane after rendering a frame (R68, R72). -/
theorem lane_renderFrame (s : State) (ch ch' : Channel) (w : BitVec 16) (i : Slot) :
    (renderFrame s ch w).lane ch' i = (s.lane ch' i || (decide (ch' = ch) && pulse w i)) := by
  simp only [State.lane, renderFrame_tlRead]
  by_cases h : pulse w i = true <;> simp [h, laneBit_getLsbD]

/-- Every lane after an ENCODE body (R70, R72). -/
theorem lane_encodeBody (ch ch' : Channel) (v : Value) (tlm : Bool) (s : State) (i : Slot) :
    (encodeBody ch v tlm s).lane ch' i = (s.lane ch' i || (decide (ch' = ch) && pulse (frame v tlm) i)) :=
  encodeBody_lane ch ch' v tlm s i

@[simp] theorem lane_setResp (s : State) (r : BitVec 16) (ch : Channel) (i : Slot) :
    (s.setResp r).lane ch i = s.lane ch i := rfl

/-- An OR write of a lane leaves bits 7..4 of the slot alone (R29 a). -/
theorem high_or_laneBit (a : Byte) (ch : Channel) : (a ||| laneBit ch).extractLsb' 4 4 = a.extractLsb' 4 4 := by
  rw [BitVec.extractLsb'_or, laneBit_high ch]; simp

/-- A slot is its four lanes and its bits 7..4. -/
theorem byte_eq_of_lanes {a b : Byte} (hl : ∀ ch : Channel, a.getLsbD ch.val = b.getLsbD ch.val)
    (hh : a.extractLsb' 4 4 = b.extractLsb' 4 4) : a = b := by
  refine BitVec.eq_of_getLsbD_eq fun i hi => ?_
  by_cases h : i < 4
  · exact hl ⟨i, h⟩
  · have e := congrArg (fun v => v.getLsbD (i - 4)) hh
    simp only [BitVec.getLsbD_extractLsb'] at e
    simpa [show i - 4 < 4 by omega, show 4 + (i - 4) = i by omega] using e

/-- A 4-bit mask with no channel's bit set is 0. -/
theorem mask_eq_zero {m : BitVec 4} (h : ∀ ch : Channel, m.getLsbD ch.val = false) : m = 0 := by
  refine BitVec.eq_of_getLsbD_eq fun i hi => ?_
  simpa using h ⟨i, hi⟩

/-- The lane of a channel that is not encoded is empty (R74). -/
theorem State.Inv.lane_eq_false {s : State} (h : s.Inv) {ch : Channel} (hm : s.encMask.getLsbD ch.val = false) (i : Slot) :
    s.lane ch i = false := by
  obtain ⟨k, j, rfl⟩ := exists_slotOf i
  obtain ⟨h0, h1, h2, h3⟩ := h.2.2.1 ch k
  have h1f : s.lane ch (slotOf k 1) = false := by
    cases hx : s.lane ch (slotOf k 1) with
    | false => rfl
    | true => rw [h2 hx] at hm; cases hm
  fin_cases j
  · exact h0.trans hm
  · exact h1f
  · exact h1.symm.trans h1f
  · exact h3

/-- Slot 63 is 0 (R69, R78). -/
theorem State.Inv.slot63 {s : State} (h : s.Inv) : s.tlRead 63 = 0 := by
  refine byte_eq_of_lanes (fun ch => ?_) (h.2.1 63)
  have h3 := (h.2.2.1 ch 15).2.2.2
  rw [show slotOf 15 3 = (63 : Slot) from rfl] at h3
  rw [show (0 : Byte).getLsbD ch.val = false by simp]
  exact h3

/-- The hazards after an encode (R71). -/
theorem mem_haz_encodeBody (ch : Channel) (v : Value) (tlm : Bool) (s : State) (h : Hazard) :
    h ∈ (encodeBody ch v tlm s).haz ↔ h ∈ s.haz ∨ (s.encMask.getLsbD ch.val = true ∧ h = .doubleEncode ch) := by
  rw [encodeBody_eq]
  cases s.encMask.getLsbD ch.val with
  | false => simp
  | true =>
    simp only [if_true, true_and]
    constructor
    · exact fun h => (mem_insertBy h).symm
    · rintro (h | rfl)
      · exact mem_insertBy_of_mem Hazard.key_injective h
      · exact self_mem_insertBy _ _ _

/-- `ENC_MASK` after an encode (R71). -/
theorem encMask_encodeBody (ch ch' : Channel) (v : Value) (tlm : Bool) (s : State) :
    (encodeBody ch v tlm s).encMask.getLsbD ch'.val = (s.encMask.getLsbD ch'.val || decide (ch' = ch)) := by
  rw [encodeBody_eq]
  simp only [setLane_getLsbD]
  split <;> simp_all

/-- The frame a line carried in a whole TRANSMIT is the frame in its lane when the TRANSMIT began (R74, R77). -/
theorem sentFrame_transmitEvents (s : State) (ch : Channel) : sentFrame (transmitEvents s) ch = receivedFrame s ch := by
  rw [sentFrame, receivedFrame]
  congr 1
  funext i
  exact levelIn_transmitEvents s i ch

/-- The frame in a lane depends on the lane only. -/
theorem receivedFrame_of_lane {s t : State} {ch : Channel} (h : ∀ i, s.lane ch i = t.lane ch i) :
    receivedFrame s ch = receivedFrame t ch := by
  rw [receivedFrame, receivedFrame]
  congr 1
  funext i
  exact h i

end Sys2Proof.Machine
end

