-- ==== Sys2Proof/Laws/Invariant.lean ====
section
/-! SUPPORT. Each shared operation keeps the invariant of Safety.lean. -/
namespace Sys2Proof.Machine

theorem State.Inv.wf {s : State} (h : s.Inv) : Memory.wf s.tl := h.1

theorem State.Inv.haz_sorted {s : State} (h : s.Inv) : s.haz.Pairwise (fun a b => a.key < b.key) := h.2.2.2.1

theorem State.Inv.faults_sorted {s : State} (h : s.Inv) : s.faults.Pairwise (fun a b => a.key < b.key) := h.2.2.2.2.1

theorem State.Inv.pin_eq_zero {s : State} (h : s.Inv) : s.pin = 0 := h.2.2.2.2.2

theorem State.Inv.setResp {s : State} (h : s.Inv) (r : BitVec 16) : (s.setResp r).Inv := h

theorem State.Inv.setFsTime {s : State} (h : s.Inv) (t : Word) : (s.setFsTime t).Inv := h

theorem State.Inv.setBeepTime {s : State} (h : s.Inv) (t : Word) : (s.setBeepTime t).Inv := h

theorem State.Inv.setDir {s : State} (h : s.Inv) (d : Direction) : (s.setDir d).Inv := h

theorem State.Inv.setHost {s : State} (h : s.Inv) (l : List HostInput) : (s.setHost l).Inv := h

theorem State.Inv.present {s : State} (h : s.Inv) (c : Command) : (s.present c).Inv := h

theorem State.Inv.raiseFault {s : State} (h : s.Inv) (f : ModelFault) : (s.raiseFault f).Inv :=
  ⟨h.1, h.2.1, h.2.2.1, h.2.2.2.1, insertBy_pairwise h.2.2.2.2.1, h.2.2.2.2.2⟩

/-- An encode of any value keeps the invariant, even of a channel that is encoded already (40_frame_encoder.md R73). -/
theorem State.Inv.encodeBody {s : State} (h : s.Inv) (ch : Channel) (v : Value) (tlm : Bool) :
    (encodeBody ch v tlm s).Inv := by
  obtain ⟨h1, h2, h3, h4, h5, h6⟩ := h
  refine ⟨?_, fun i => ?_, fun c k => ?_, ?_, ?_, ?_⟩
  · rw [encodeBody_eq]; exact wf_renderFrame h1 _ _
  · rw [encodeBody_tlRead]
    split
    · rw [high_or_laneBit]; exact h2 i
    · simpa using h2 i
  · obtain ⟨a, b, d, e⟩ := h3 c k
    simp only [lane_encodeBody, encMask_encodeBody, pulse_slotOf, a, ← b, e]
    by_cases hc : c = ch
    · subst hc; simp
    · simp [hc]; simpa using d
  · rw [encodeBody_eq]
    simp only
    split
    · exact insertBy_pairwise h4
    · exact h4
  · rw [encodeBody_eq]; exact h5
  · rw [encodeBody_eq]; exact h6

/-- A send keeps the invariant: the timeline, `ENC_MASK` and the lines are all 0 after it (41_transmitter.md R78). -/
theorem State.Inv.transmitBody {s : State} (h : s.Inv) : (transmitBody s).Inv := by
  have h63 := h.slot63
  obtain ⟨h1, h2, h3, h4, h5, h6⟩ := h
  have hm : (Machine.transmitBody s).encMask = 0 := by rw [transmitBody_eq]
  refine ⟨?_, fun i => ?_, fun c k => ?_, ?_, ?_, ?_⟩
  · rw [transmitBody_tl h1]; exact Memory.wf_nil
  · rw [transmitBody_tlRead]; rfl
  · simp only [State.lane, transmitBody_tlRead, hm]; simp
  · rw [transmitBody_eq]; exact h4
  · rw [transmitBody_eq]; exact h5
  · rw [transmitBody_eq]; simp only [h63]; rfl

theorem State.Inv.injectBeep {s : State} (h : s.Inv) (code : Value) : (injectBeep code s).Inv := by
  refine State.Inv.transmitBody ?_
  generalize allChannels = l
  induction l generalizing s with
  | nil => exact h
  | cons a l ih => exact ih (h.encodeBody a code true)

end Sys2Proof.Machine
end

