-- ==== Sys2Proof/Laws/PerInstr.lean ====
section
/-! SUPPORT. Statements about every command as syntax, one lemma per constructor. -/

/-- The family EncodingLegal: the word of a command is a legal command word (R58), and its fields read back are the
command's own (R52, R53). -/
def Sys2Proof.Laws.EncodingLegal.Statement (i : Sys2Proof.Instr) : Prop :=
  (Sys2Proof.Fields.ofWord (Sys2Proof.encode i)).illegality = none ∧
    Sys2Proof.Fields.ofWord (Sys2Proof.encode i) = i.fields

namespace Sys2Proof.Laws

theorem EncodingLegal.encode (ch : Channel) (value : Value) (tlm : Bool) :
    EncodingLegal.Statement (.encode ch value tlm) :=
  ⟨by rw [ofWord_encode]; rfl, ofWord_encode _⟩

theorem EncodingLegal.transmit : EncodingLegal.Statement .transmit :=
  ⟨by rw [ofWord_encode]; rfl, ofWord_encode _⟩

theorem EncodingLegal.map (ch : Channel) (gnd fs : Bool) : EncodingLegal.Statement (.map ch gnd fs) :=
  ⟨by rw [ofWord_encode]; rfl, ofWord_encode _⟩

theorem EncodingLegal.throttle (ch : Channel) (gnd fs : Bool) : EncodingLegal.Statement (.throttle ch gnd fs) :=
  ⟨by rw [ofWord_encode]; rfl, ofWord_encode _⟩

theorem EncodingLegal.beepTick (fs : Bool) : EncodingLegal.Statement (.beepTick fs) :=
  ⟨by rw [ofWord_encode]; rfl, ofWord_encode _⟩

theorem EncodingLegal.setDir (dir : Direction) : EncodingLegal.Statement (.setDir dir) :=
  ⟨by rw [ofWord_encode]; rfl, ofWord_encode _⟩

end Sys2Proof.Laws
end

