-- ==== Sys2Proof/Laws/Responses.lean ====
section
/-! SUPPORT. The fields of the response words (30_encoding.md R60) and the cases of the failsafe latch (R92). -/
namespace Sys2Proof.Machine

/-- A concatenation as a number. -/
theorem append_toNat {n m : Nat} (x : BitVec n) (y : BitVec m) : (x ++ y).toNat = x.toNat * 2 ^ m + y.toNat := by
  rw [BitVec.toNat_append, ← Nat.shiftLeft_add_eq_or_of_lt y.isLt, Nat.shiftLeft_eq]

theorem mapResponse_toNat (st : FsState) (v : Value) :
    (mapResponse st v).toNat = st.code.toNat * 2 ^ 12 + v.toNat := by
  change (0#2 ++ st.code ++ 0#1 ++ v : BitVec (2 + 2 + 1 + 11)).toNat = _
  simp only [append_toNat, BitVec.toNat_ofNat]
  omega

theorem beepResponse_toNat (sent : Bool) (b : BeepState) (c : Value) :
    (beepResponse sent b c).toNat = sent.toNat * 2 ^ 15 + b.code.toNat * 2 ^ 13 + c.toNat := by
  change (BitVec.ofBool sent ++ b.code ++ 0#2 ++ c : BitVec (1 + 2 + 2 + 11)).toNat = _
  simp only [append_toNat, BitVec.toNat_ofNat, BitVec.toNat_ofBool]
  omega

/-- The fields of MAP's and THROTTLE's response. -/
theorem mapResponse_fields (st : FsState) (v : Value) :
    (mapResponse st v).extractLsb' 0 11 = v ∧ (mapResponse st v).extractLsb' 11 1 = 0 ∧
      (mapResponse st v).extractLsb' 12 2 = st.code ∧ (mapResponse st v).extractLsb' 14 2 = 0 := by
  have hv := v.isLt
  have hc := st.code.isLt
  refine ⟨?_, ?_, ?_, ?_⟩ <;>
    (apply BitVec.eq_of_toNat_eq
     simp only [BitVec.extractLsb'_toNat, Nat.shiftRight_eq_div_pow, mapResponse_toNat, BitVec.ofNat_eq_ofNat,
       BitVec.toNat_ofNat]
     omega)

/-- The fields of BEEP_TICK's response. -/
theorem beepResponse_fields (sent : Bool) (b : BeepState) (c : Value) :
    (beepResponse sent b c).extractLsb' 0 11 = c ∧ (beepResponse sent b c).extractLsb' 11 2 = 0 ∧
      (beepResponse sent b c).extractLsb' 13 2 = b.code ∧
      (beepResponse sent b c).extractLsb' 15 1 = BitVec.ofBool sent := by
  have hv := c.isLt
  have hc := b.code.isLt
  have hs := Bool.toNat_lt sent
  refine ⟨?_, ?_, ?_, ?_⟩ <;>
    (apply BitVec.eq_of_toNat_eq
     simp only [BitVec.extractLsb'_toNat, Nat.shiftRight_eq_div_pow, beepResponse_toNat, BitVec.ofNat_eq_ofNat,
       BitVec.toNat_ofNat, BitVec.toNat_ofBool]
     omega)

theorem failsafeLatch_clear (now t : Word) : failsafeLatch false now t = ⟨0, false, .clear⟩ := rfl

/-- An onset that is latched at 0 is not timed (R139). -/
theorem failsafeLatch_untimed : failsafeLatch true 0 0 = ⟨0, false, .untimed⟩ := rfl

/-- The command that latches the onset never cuts off (R92). -/
theorem failsafeLatch_onset {now : Word} (h : now ≠ 0) : failsafeLatch true now 0 = ⟨now, false, .grace⟩ := by
  have h' : now ≠ 0#32 := h
  simp [failsafeLatch, h', elapsed, fsCutoffUs]

/-- A timed failsafe (R92). -/
theorem failsafeLatch_timed {now t : Word} (h : t ≠ 0) :
    failsafeLatch true now t =
      if 100000 < (elapsed now t).toNat then ⟨t, true, .cutoff⟩ else ⟨t, false, .grace⟩ := by
  have h' : t ≠ 0#32 := h
  simp [failsafeLatch, h', fsCutoffUs]

end Sys2Proof.Machine
end

