-- ==== Sys2Proof/Laws/Step.lean ====
section
/-! SUPPORT. What a step can be: the cases of the host's next input. -/
namespace Sys2Proof.Machine

/-- A step that has a next state ran under a well-formed configuration, and was idle or took the host's next input. -/
theorem step_cases {s t : State} (h : step s = .next t) :
    failingCheck s.cfg = none ∧
      ((s.host = [] ∧ t = s) ∨ ∃ input rest, s.host = input :: rest ∧ runInput input (s.setHost rest) = .next t) := by
  simp only [step] at h
  cases hc : failingCheck s.cfg with
  | some c => rw [hc] at h; cases h
  | none =>
    rw [hc] at h
    refine ⟨rfl, ?_⟩
    simp only [runNext] at h
    cases hh : s.host with
    | nil => rw [hh] at h; cases h; exact .inl ⟨rfl, rfl⟩
    | cons input rest => rw [hh] at h; exact .inr ⟨input, rest, rfl, h⟩

/-- A presented command that has a next state is a legal word's command run, or an illegal word recorded. -/
theorem runCommand_cases {c : Command} {s t : State} (h : runCommand c s = .next t) :
    (∃ i, decode c.cmd = .ok i ∧ exec i (s.present c) = .next t) ∨
      ((∃ r, decode c.cmd = .error r) ∧ t = (s.present c).illegalCommand) := by
  simp only [runCommand] at h
  cases hd : decode c.cmd with
  | ok i => rw [hd] at h; exact .inl ⟨i, rfl, h⟩
  | error r => rw [hd] at h; cases h; exact .inr ⟨⟨r, rfl⟩, rfl⟩

theorem step_of_host {s : State} (hc : failingCheck s.cfg = none) {input : HostInput} {rest : List HostInput}
    (hh : s.host = input :: rest) : step s = runInput input (s.setHost rest) := by
  simp only [step, hc, runNext, hh]

end Sys2Proof.Machine
end

