-- ==== Sys2Proof/Tests/Slice0.lean ====
section
/-! SUPPORT. Tests: decoding and well-formedness by words and terms written out from the spec, one step at a time on its
vectors (95_test_vectors.md), and for each statement with premises a state and operands that meet all of them together. -/
namespace Sys2Proof.Tests
open Sys2Proof.Machine
-- One thread: each machine step is checked by evaluation in the kernel, and several at once want more memory.
set_option Elab.async false

/-- 95_test_vectors.md's configuration, with the build's `BIDIR` and a profile chosen. -/
def testCfg (bidir : Bool) : Cfg := { Config.cfg with bidir := bidir, profiles := [.fast] }

/-- The reset state of 95_test_vectors.md's configuration with `BIDIR = on`. -/
def fresh : State := State.resetWith (testCfg true)

/-- The reset state with the bus operands of the next command. -/
def withBuses (thr now : Word) : State := { fresh with thr := thr, now := now }

/-- Channel 0 encoded with value 100 (frame `0x0C84`). -/
def encoded : State := encodeBody 0 100 false fresh

/-- A failsafe latched at `onset`, the throttle 0.5 (`0x3F000000`) on the bus. -/
def latched (onset now : Word) : State := { withBuses 0x3F000000 now with fsTime := onset }

/-- A beep episode latched at 1000000, `e` microseconds ago. -/
def beeping (e : Nat) : State := { withBuses 0 (BitVec.ofNat 32 (1000000 + e)) with beepTime := 1000000 }

/-- The host presents one command. -/
def presenting (s : State) (w : Word) : State := { s with host := [.command ⟨w, s.thr, s.now⟩] }

/-- One field of the next state. -/
def seen {α : Type} (o : Host.Outcome State Fault Refusal) (f : State → α) : Option α :=
  match o with
  | .next t => some (f t)
  | .fault _ => none
  | .refused _ => none

/-! ## Decoding (R52, R57, R58; 95_test_vectors.md 2) -/

/-- `OP = 1`, `CH = 0`, `VAL = 100` in bits 16:6, `TLM = 0` (R63). -/
theorem test_decode_encode : decode 0b00000000000_0_0_0_0_00001100100_00_0001#32 = .ok (.encode 0 100 false) := by decide

/-- `OP = 1`, `CH = 3`, `VAL = 2047`, `TLM = 1` (R63). -/
theorem test_decode_encode_ones : decode 0b00000000000_0_0_0_1_11111111111_11_0001#32 = .ok (.encode 3 2047 true) := by
  decide

theorem test_decode_transmit : decode 0b00000000000_0_0_0_0_00000000000_00_0010#32 = .ok .transmit := by decide

/-- `FS = 1` in bit 20, `GND = 1` in bit 19, `CH = 2` (R63). -/
theorem test_decode_map : decode 0b00000000000_1_1_0_0_00000000000_10_0011#32 = .ok (.map 2 true true) := by decide

/-- Only `GND` set (95_test_vectors.md 5.3): not `FS`. -/
theorem test_decode_map_ground : decode 0x00080003 = .ok (.map 0 true false) := by decide

theorem test_decode_throttle : decode 0b00000000000_1_0_0_0_00000000000_11_0100#32 = .ok (.throttle 3 false true) := by
  decide

theorem test_decode_beepTick : decode 0b00000000000_1_0_0_0_00000000000_00_0101#32 = .ok (.beepTick true) := by decide

theorem test_decode_setDir : decode 0b00000000000_0_0_1_0_00000000000_00_0110#32 = .ok (.setDir .reverse) := by decide

/-- R58's illegal words, as 95_test_vectors.md 2.2 lists them. -/
theorem test_illegal_words :
    [0x00000000, 0x00000007, 0x0000000F, 0x80000002, 0x00200001, 0x00040001, 0x00080001, 0x00100001, 0x00000012,
      0x00001902, 0x00000043, 0x00020004, 0x00040004, 0x00000015, 0x00080005, 0x00080006, 0x00000016,
      0xFFFFFFFF].all (fun w : Word => (decode w).toOption.isNone) = true := by decide

/-! ## Well-formedness: an ill-formed term for each check -/

/-- `RSV` not 0 (R58). -/
theorem test_illformed_reservedBits : (⟨2, 0, 0, 0, 0, 0, 0, 1⟩ : Fields).illegality = some .reservedBits := by decide

/-- `OP = 7` (R58). -/
theorem test_illformed_reservedOpcode : (⟨7, 0, 0, 0, 0, 0, 0, 0⟩ : Fields).illegality = some .reservedOpcode := by decide

/-- A TRANSMIT with `CH = 1` (R58). -/
theorem test_illformed_unusedField : (⟨2, 1, 0, 0, 0, 0, 0, 0⟩ : Fields).illegality = some .unusedField := by decide

/-- Both profiles, and neither: "a build-time error" (R85, R131). -/
theorem test_illformed_profile :
    failingCheck { testCfg true with profiles := [.fast, .slow] } = some .profile ∧
      failingCheck { testCfg true with profiles := [] } = some .profile := by decide

/-- The ends of R132's ranges, just inside and just outside. -/
theorem test_illformed_idle :
    failingCheck { testCfg true with idleOffset := -1 } = some .idle ∧
      failingCheck { testCfg true with idleOffset := 0 } = none ∧
      failingCheck { testCfg true with idleOffset := 999 } = none ∧
      failingCheck { testCfg true with idleOffset := 1000 } = some .idle ∧
      failingCheck { testCfg false with idleOffset := 0 } = some .idle ∧
      failingCheck { testCfg false with idleOffset := 1 } = none ∧
      failingCheck { testCfg false with idleOffset := 500 } = none ∧
      failingCheck { testCfg false with idleOffset := 501 } = some .idle := by decide

theorem test_illformed_timeout :
    failingCheck { testCfg true with beepTimeoutUs := 2 ^ 32 } = some .timeout ∧
      failingCheck { testCfg true with beepTimeoutUs := 2 ^ 32 - 1 } = none := by decide

theorem test_illformed_codes :
    failingCheck { testCfg true with beepCode3 := 2048 } = some .codes ∧
      failingCheck { testCfg true with beepCode3 := 2047 } = none := by decide

/-- A supplied map misses R90 (a) whatever it is when `lo` is below 0, and its range is empty when `lo` exceeds `hi`. -/
theorem test_illformed_mapFn :
    failingCheck { testCfg true with mapFn := .supplied, idleOffset := -100 } = some .mapFn ∧
      failingCheck { testCfg true with mapFn := .supplied, idleOffset := 1000 } = some .idle := by decide +kernel

theorem test_illformed_fsReset :
    failingCheck { testCfg true with fsTimeReset := 2 ^ 32 } = some .fsReset ∧
      failingCheck { testCfg true with fsTimeReset := 2 ^ 32 - 1 } = none := by decide

/-- Timing numbers of a build that states them: a fast bit of 8 units, a slow bit of 16. -/
def testTiming : Timing where
  bitFast := 8
  bitSlow := 16
  slotFast := 2
  slotSlow := 4
  nopSet := 1
  nopReset := 2
  nopSlotFast := 0
  nopSlotSlow := 0
  edgeSkewMax := 1

/-- A configuration with stated timing numbers. -/
def timedCfg (t : Timing) : Cfg := { testCfg true with timing := .given t }

/-- A slot that is not a quarter of a bit, in either profile, and equal delay counts (R131). -/
theorem test_illformed_timing :
    failingCheck (timedCfg { testTiming with slotFast := 3 }) = some .timing ∧
      failingCheck (timedCfg { testTiming with slotSlow := 5 }) = some .timing ∧
      failingCheck (timedCfg { testTiming with nopReset := 1 }) = some .timing := by decide

/-- A slow bit of exactly two fast bits passes, and one as long as a fast bit is refused, whatever "roughly" allows. -/
theorem test_illformed_timing_ratio :
    failingCheck (timedCfg testTiming) = none ∧
      failingCheck (timedCfg { testTiming with bitSlow := 8, slotSlow := 2 }) = some .timing := by
  have h : slowTolerance 8 < 8 := Nat.mod_lt _ (by decide)
  refine ⟨?_, ?_⟩ <;>
    simp [failingCheck, cfgProfileOk, cfgIdleOk, idleInReferenceRange, cfgTimeoutOk, cfgCodesOk, cfgMapFnOk, cfgFsResetOk,
      cfgTimingOk, timedCfg, testCfg, testTiming, Config.cfg]
  omega

/-- A channel of 4 and a value of 2048 are assembly errors (R61). -/
theorem test_assemble_ranges :
    assemble (.encode 4 0 0) = none ∧ assemble (.encode 0 2048 0) = none ∧ assemble (.beepTick (2 ^ 32) 0) = none := by
  decide

/-- Decimal throttles round to the patterns of 95_test_vectors.md 5.1 (R61). -/
theorem test_decimal_throttles :
    (ThrLit.decimal false 5 1).word = 0x3F000000 ∧ (ThrLit.decimal false 999 3).word = 0x3F7FBE77 ∧
      (ThrLit.decimal false 9 1).word = 0x3F666666 ∧ (ThrLit.decimal true 10 1).word = 0xBF800000 := by decide +kernel

/-! ## One step at a time, on the spec's vectors -/

/-- The source's worked example: value 100 without telemetry is frame `0x0C84` (95_test_vectors.md 1.1). -/
theorem test_frame_example : frame 100 false = 0x0C84 ∧ frame 1365 true = 0xAABB ∧ frame 1 true = 0x0033 := by decide

/-- ENCODE 0, 100, 0: slots 16..18 are the first set protocol bit, slot 19 is low (95_test_vectors.md 1.1). -/
theorem test_encode_slots :
    seen (step (presenting fresh 0x00001901))
      (fun t => [t.tlRead 0, t.tlRead 1, t.tlRead 16, t.tlRead 17, t.tlRead 18, t.tlRead 19, t.tlRead 53]) =
      some [1, 0, 1, 1, 1, 0, 1] := by decide +kernel

/-- A double encode holds `0x0C84 | 0x4703 = 0x4F87` and is recorded (95_test_vectors.md 3.4). -/
theorem test_encode_twice :
    seen (exec (.encode 0 568 false) encoded) (fun t => (receivedFrame t 0, t.haz)) = some (0x4F87, [.doubleEncode 0]) := by
  decide +kernel

/-- TRANSMIT sends line 0's frame, leaves the other lines low, and ends with `TXDONE(0001)` (95_test_vectors.md 1.1, 4.2). -/
theorem test_transmit :
    seen (exec .transmit encoded)
      (fun t => (sentFrame t.trace 0, sentFrame t.trace 1, t.trace.length, t.trace.getLast?, t.tl.length)) =
      some (0x0C84, 0, 257, some (.txDone 1), 0) := by decide +kernel

/-- MAP 0.5 under each direction and configuration (95_test_vectors.md 5.1). -/
theorem test_map :
    seen (exec (.map 0 false false) (withBuses 0x3F000000 1000)) State.resp = some 0x0238 ∧
      seen (exec (.map 0 false false) { withBuses 0x3F000000 1000 with dir := .reverse }) State.resp = some 0x0620 ∧
      seen (exec (.map 0 false false) { withBuses 0x3F000000 1000 with cfg := testCfg false }) State.resp =
        some 0x0440 := by decide +kernel

/-- Row 5 of 95_test_vectors.md 6.1: the first cutoff. -/
theorem test_map_cutoff :
    seen (exec (.map 0 false true) (latched 2000 102001)) (fun t => (t.resp, t.fsTime)) = some (0x3000, 2000) := by
  decide +kernel

/-- THROTTLE 3, 0.25 sends frame `0x290B` on line 3 (95_test_vectors.md 7). -/
theorem test_throttle_last :
    seen (exec (.throttle 3 false false) (withBuses 0x3E800000 1000))
      (fun t => (t.resp, sentFrame t.trace 3, sentFrame t.trace 0, t.trace.getLast?)) =
      some (0x0148, 0x290B, 0, some (.txDone 8)) := by decide +kernel

/-- THROTTLE 0, 0.5 encodes `0x4703` on channel 0 and sends nothing (95_test_vectors.md 7). -/
theorem test_throttle_first :
    seen (exec (.throttle 0 false false) (withBuses 0x3F000000 1000)) (fun t => (receivedFrame t 0, t.encMask, t.trace)) =
      some (0x4703, 1, []) := by decide +kernel

/-- The second window sends code 3 (95_test_vectors.md 8.1, `e = 6250000`). -/
theorem test_beepTick_window :
    seen (exec (.beepTick true) (beeping 6250000)) (fun t => (t.resp, sentFrame t.trace 2)) = some (0xC003, 0x0077) := by
  decide +kernel

/-- The wrap row of 95_test_vectors.md 8.2: `e = 5000256`, beeping, in the silent second. -/
theorem test_beepTick_wrap :
    seen (exec (.beepTick true) { withBuses 0 5000000 with beepTime := 0xFFFFFF00 }) (fun t => (t.resp, t.beepTime)) =
      some (0x4000, 0xFFFFFF00) := by decide +kernel

/-- SET_DIR REVERSE by its word (95_test_vectors.md 5.4). -/
theorem test_setDir : seen (step (presenting fresh 0x00040006)) (fun t => (t.dir, t.resp)) = some (.reverse, 0) := by
  decide +kernel

/-- An illegal word keeps the slots and is recorded (95_test_vectors.md 4.2). -/
theorem test_illegal_command :
    seen (step (presenting encoded 0x00000012)) (fun t => (t.tlRead 0, t.faults)) =
      some (1, [.illegalCommand 0x00000012]) := by decide +kernel

/-- The MAP of 95_test_vectors.md 6.3: a NaN is recorded and the latch stays. -/
theorem test_nan :
    seen (exec (.map 0 false true) (withBuses 0x7FC00000 5000)) (fun t => (t.fsTime, t.resp, t.faults)) =
      some (0, 0, [.throttleNan 0x7FC00000]) := by decide +kernel

/-! ## A state and operands that meet each statement's premises -/

/-- `EncodeOfDecode`. -/
theorem test_premises_EncodeOfDecode : decode 0x00180023 = .ok (.map 2 true true) := by decide

/-- `OpcodeTableDecodes`: a word that one row accepts, and one that none does. -/
theorem test_premises_OpcodeTableDecodes :
    ⟨"TRANSMIT", 2, 0xFFFFFFFF⟩ ∈ opcodeTable ∧ OpcodeRow.accepts ⟨"TRANSMIT", 2, 0xFFFFFFFF⟩ 2 = true ∧
      ∀ r ∈ opcodeTable, r.accepts 0x12 = false := by decide

/-- `IllegalWordStep`: the host presents a TRANSMIT with `CH = 1`. -/
theorem test_premises_IllegalWordStep :
    failingCheck (presenting fresh 0x12).cfg = none ∧ (presenting fresh 0x12).host = .command ⟨0x12, 0, 0⟩ :: [] ∧
      illegalByFields (Command.mk 0x12 0 0).cmd := by decide

/-- Every clause of R58 by itself (95_test_vectors.md 2.2), and a legal word under none. -/
theorem test_illegalByFields :
    illegalByFields 0 ∧ illegalByFields 7 ∧ illegalByFields 0x80000002 ∧ illegalByFields 0x00040001 ∧
      illegalByFields 0x00001902 ∧ illegalByFields 0x00000043 ∧ illegalByFields 0x00000015 ∧ illegalByFields 0x00080006 ∧
      illegalByFields 0x00000016 ∧ ¬ illegalByFields 0x00180023 :=
  ⟨by decide, by decide, by decide, by decide, by decide, by decide, by decide, by decide, by decide, by decide⟩

/-- `StepRunsDecoded`; `PlacedWordRuns` and `WellFormedCfgSteps` by its first part. -/
theorem test_premises_StepRunsDecoded :
    failingCheck (presenting fresh 2).cfg = none ∧ (presenting fresh 2).host = .command ⟨2, 0, 0⟩ :: [] ∧
      decode (Command.mk 2 0 0).cmd = .ok .transmit := by decide

/-- `PlacedWordRuns` and `WellFormedCfgSteps` hold of the machine's own reset state too. -/
theorem test_premises_PlacedWordRuns : failingCheck State.reset.cfg = none := by decide

/-- `IdleStepKeepsState`. -/
theorem test_premises_IdleStepKeepsState : failingCheck encoded.cfg = none ∧ encoded.host = [] := by decide +kernel

/-- `ResetStep`. -/
theorem test_premises_ResetStep :
    failingCheck (State.setHost encoded [.reset]).cfg = none ∧ (State.setHost encoded [.reset]).host = .reset :: [] := by
  decide +kernel

/-- `ResetDuringTransmit` and `ResetDuringCommand`: after 10 of 256 events. -/
theorem test_premises_ResetDuringTransmit :
    failingCheck (State.setHost encoded [.resetDuring ⟨2, 0, 0⟩ 10]).cfg = none ∧
      (State.setHost encoded [.resetDuring ⟨2, 0, 0⟩ 10]).host = .resetDuring ⟨2, 0, 0⟩ 10 :: [] ∧
      decode (Command.mk 2 0 0).cmd = .ok .transmit := by decide +kernel

/-- `ResetDuringCommand`'s second clause: the command word is illegal. -/
theorem test_premises_ResetDuringIllegal :
    failingCheck (State.setHost encoded [.resetDuring ⟨0x12, 0, 0⟩ 0]).cfg = none ∧
      (State.setHost encoded [.resetDuring ⟨0x12, 0, 0⟩ 0]).host = .resetDuring ⟨0x12, 0, 0⟩ 0 :: [] ∧
      illegalByFields (Command.mk 0x12 0 0).cmd := by decide +kernel

/-- `IllFormedCfgRefused`. -/
theorem test_premises_IllFormedCfgRefused :
    failingCheck (State.resetWith { testCfg true with profiles := [] }).cfg = some .profile := by decide

/-- `StepKeepsInv`: a state that holds a frame meets the invariant and steps. -/
theorem test_premises_StepKeepsInv : encoded.Inv ∧ (seen (step (presenting encoded 2)) State.pin).isSome = true := by
  decide +kernel

/-- `InvEmptyTimeline`, `TransmitEmptyTimeline` and `RenderIntoEmpty`. -/
theorem test_premises_TransmitEmptyTimeline : fresh.Inv ∧ fresh.encMask = 0 ∧ ∀ i : Slot, fresh.tlRead i = 0 := by
  decide +kernel

/-- `LanesIndependent`: another order, another channel, and two states that agree on lane 1. -/
theorem test_premises_LanesIndependent :
    encoded.Inv ∧ [3, 1, 0, 2].Perm allChannels ∧ (1 : Channel) ≠ 0 ∧ ∀ i, encoded.lane 1 i = fresh.lane 1 i := by
  decide +kernel

/-- `DoubleEncodeIsOr`, `AfterTransmit`, `ReceiverRecoversFrame` and `EncodeThenTransmit`, with channel 1 not encoded and
channel 0 encoded. -/
theorem test_premises_EncodeThenTransmit :
    encoded.Inv ∧ encoded.encMask.getLsbD 1 = false ∧ encoded.encMask.getLsbD 0 = true := by decide +kernel

/-- `ClampRule`: below, at, inside and above the range. -/
theorem test_premises_ClampRule :
    isNaN 0xFF800000 = false ∧ f32Lt 0xFF800000 0 = true ∧ f32Lt 0x80000001 0 = true ∧
      f32Lt 0x80000000 0 = false ∧ isNaN 0x80000000 = false ∧ clamped 0x80000000 = true ∧ f32Lt clampHi 0x3F7FBE77 = false ∧
      f32Lt clampHi 0x3F7FBE78 = true ∧ isNaN 0x7F800000 = false ∧ f32Lt clampHi 0x7F800000 = true := by decide

/-- `MapFnMeetsR90`, at both ends of both of R132's ranges. -/
theorem test_premises_MapFnMeetsR90 :
    failingCheck { testCfg true with idleOffset := 0 } = none ∧ failingCheck { testCfg true with idleOffset := 999 } = none ∧
      failingCheck { testCfg false with idleOffset := 1 } = none ∧
      failingCheck { testCfg false with idleOffset := 500 } = none := by decide

/-- `MapResult`, `MapValueInRange`, `GroundGivesZero`, `ClearRestoresMapping` and `ThrottleIsMapEncodeTransmit`. -/
theorem test_premises_MapResult :
    failingCheck (withBuses 0x3F000000 1000).cfg = none ∧ isNaN (withBuses 0x3F000000 1000).thr = false ∧
      (Instr.map 0 false false = .map 0 false false ∨ Instr.map 0 false false = .throttle 0 false false) := by decide

/-- `ClearRestoresMapping`'s second command, and a timed failsafe before it. -/
theorem test_premises_ClearRestoresMapping :
    (700000 : Word) ≠ 0 ∧ isNaN 0x3F000000 = false ∧ (latched 2000 9).fsTime ≠ 0 := by
  decide

/-- `MapMonotone`: 0.25 and 0.5, and the two zeros. -/
theorem test_premises_MapMonotone :
    failingCheck (latched 0 1000).cfg = none ∧ (latched 0 1000).cfg.mapFn = .reference ∧ isNaN 0x3E800000 = false ∧
      isNaN 0x3F000000 = false ∧ f32Lt 0x3F000000 0x3E800000 = false ∧ f32Lt 0x80000000 0 = false ∧
      (failsafeLatch true (latched 0 1000).now (latched 0 1000).fsTime).cut = false := by decide

/-- `NanRecordsFault`, for both commands. -/
theorem test_premises_NanRecordsFault :
    isNaN (withBuses 0x7F800001 0).thr = true ∧
      (Instr.map 1 true true = .map 1 true true ∨ Instr.map 1 true true = .throttle 1 true true) ∧
      (Instr.throttle 1 true true = .map 1 true true ∨ Instr.throttle 1 true true = .throttle 1 true true) := by decide

/-- `LatchCases`: an onset, a timed failsafe at exactly 100000 and at 100001 µs, and both across the wrap
(95_test_vectors.md 6.2). -/
theorem test_premises_LatchCases :
    (2000 : Word) ≠ 0 ∧ ((102000 : Word).toNat + 2 ^ 32 - (2000 : Word).toNat) % 2 ^ 32 ≤ 100000 ∧
      100000 < ((102001 : Word).toNat + 2 ^ 32 - (2000 : Word).toNat) % 2 ^ 32 ∧
      ((0x000086A0 : Word).toNat + 2 ^ 32 - (0xFFFF0000 : Word).toNat) % 2 ^ 32 ≤ 100000 ∧
      100000 < ((0x000086A1 : Word).toNat + 2 ^ 32 - (0xFFFF0000 : Word).toNat) % 2 ^ 32 := by decide

/-- `FailsafeCutoff`: the last command of the grace period and the first one cut off. -/
theorem test_premises_FailsafeCutoff :
    isNaN (latched 2000 102000).thr = false ∧ (latched 2000 102000).fsTime ≠ 0 ∧
      (elapsed (latched 2000 102000).now (latched 2000 102000).fsTime).toNat = 100000 ∧
      (elapsed (latched 2000 102001).now (latched 2000 102001).fsTime).toNat = 100001 := by decide

/-- `ThrottleThreeSends`, with channel 0 encoded and channel 3 not. -/
theorem test_premises_ThrottleThreeSends :
    State.Inv { encoded with thr := 0x3E800000 } ∧ encoded.encMask.getLsbD 3 = false ∧ isNaN 0x3E800000 = false := by
  decide +kernel

/-- `BeepWindowTable`: the codes at each window's first and last microsecond (95_test_vectors.md 8.1). -/
theorem test_premises_BeepWindowTable :
    [0, 249999, 250000, 499999, 500000, 749999, 750000, 999999, 1000000, 1999999].map (windowCode (testCfg true)) =
      [some 1, some 1, some 3, some 3, some 2, some 2, some 4, some 4, none, none] := by decide

/-- `BeepTickSilent`: waiting at exactly the timeout, beeping one microsecond later in the silent second, and an onset. -/
theorem test_premises_BeepTickSilent :
    (1000000 : Word) = (if (beeping 5000000).beepTime = 0 then (beeping 5000000).now else (beeping 5000000).beepTime) ∧
      (elapsed (beeping 5000000).now 1000000).toNat = (beeping 5000000).cfg.beepTimeoutUs ∧
      (elapsed (beeping 5000001).now 1000000).toNat = 5000001 ∧ 1000000 ≤ 5000001 % 2000000 ∧
      (if fresh.beepTime = 0 then fresh.now else fresh.beepTime) = 0 := by decide

/-- `BeepTickInWindow` and `BeepSendsOnAllLines`, at the first microsecond of window 1. -/
theorem test_premises_BeepSendsOnAllLines :
    (beeping 6000000).Inv ∧ (beeping 6000000).encMask = 0 ∧ (beeping 6000000).beepTime ≠ 0 ∧
      (beeping 6000000).cfg.beepTimeoutUs < (elapsed (beeping 6000000).now (beeping 6000000).beepTime).toNat ∧
      windowCode (beeping 6000000).cfg
        ((elapsed (beeping 6000000).now (beeping 6000000).beepTime).toNat % 2000000) = some 1 := by decide +kernel

/-- `CutoffWhileBeeping`: both episodes began at 1000000. -/
theorem test_premises_CutoffWhileBeeping :
    let s : State := { beeping 6000000 with fsTime := 1000000 }
    s.fsTime ≠ 0 ∧ s.beepTime ≠ 0 ∧ 100000 ≤ s.cfg.beepTimeoutUs ∧
      (elapsed s.now s.beepTime).toNat ≤ (elapsed s.now s.fsTime).toNat ∧
      s.cfg.beepTimeoutUs < (elapsed s.now s.beepTime).toNat ∧ isNaN s.thr = false := by decide

/-- `WhoWritesWhat` and `DutyCausesNoHazard`: an encode against the duty, and one that keeps it, both complete. -/
theorem test_premises_DutyCausesNoHazard :
    (seen (exec (.encode 0 5 true) encoded) State.resp).isSome = true ∧ encodeDuty encoded (.encode 0 5 true) = false ∧
      (seen (exec (.encode 1 5 true) encoded) State.resp).isSome = true ∧ encodeDuty encoded (.encode 1 5 true) = true ∧
      encodeDuty encoded (.throttle 0 false false) = false ∧ isNaN encoded.thr = false ∧
      isNaN (withBuses 0x7FC00000 0).thr = true := by decide +kernel

/-- `DutyCausesNoHazard`'s tick in a window on a timeline that holds channel 0, and one in the silent second
(95_test_vectors.md 8.4). -/
theorem test_premises_DutyBeepTick :
    (seen (exec (.beepTick true) (encodeBody 0 568 false (beeping 6100000))) State.haz) = some [.doubleEncode 0] ∧
      (encodeBody 0 568 false (beeping 6100000)).beepHit true = some 1 ∧
      (encodeBody 0 568 false (beeping 7100000)).beepHit true = none := by decide +kernel

/-- `RecordsAreSticky`: a state that holds a fault and a hazard, and a command. -/
theorem test_premises_RecordsAreSticky :
    (seen (step (presenting { encoded with faults := [.illegalCommand 0], haz := [.doubleEncode 2] } 2))
      (fun t => (t.faults, t.haz))) = some ([.illegalCommand 0], [.doubleEncode 2]) := by decide +kernel

/-- `UnreadBusesIgnored`. -/
theorem test_premises_UnreadBusesIgnored :
    readsThr (.beepTick true) = false ∧ readsNow (.encode 0 0 false) = false ∧
      raisesThrottleNan (withBuses 0x7FC00000 0) (.map 0 false false) = true ∧
      raisesThrottleNan (withBuses 0x7FC00000 0) .transmit = false := by decide

/-- `WaveformTiming`: a TRANSMIT under the configured profile FAST, its first event's time and the length of its 64 slots. -/
theorem test_premises_WaveformTiming :
    failingCheck { encoded with cfg := timedCfg { testTiming with nopReset := 1 } }.cfg = some .timing ∧
      failingCheck encoded.cfg = none ∧ transmitTime (timedCfg testTiming) = some (16 * 8) ∧
      transmitTime { timedCfg testTiming with profiles := [.slow] } = some (16 * 16) ∧
      transmitTime { timedCfg testTiming with profiles := [] } = none := by decide +kernel

/-- `ReferenceMapRounds`: the throttle 0.5 under `BIDIR = on` and `off`. -/
theorem test_premises_ReferenceMapRounds :
    failingCheck (testCfg true) = none ∧ failingCheck (testCfg false) = none ∧ (testCfg true).mapFn = .reference ∧
      clamped 0x3F000000 = true ∧ clamped 0x80000000 = true := by decide

/-- `DirReadOnlyWhenBidirectional`: a MAP with `BIDIR = off`, under a supplied map too, and a BEEP_TICK with `on`. -/
theorem test_premises_DirReadOnlyWhenBidirectional :
    (testCfg false).bidir = false ∧ { testCfg false with mapFn := .supplied }.bidir = false ∧ (testCfg true).bidir = true ∧
      readsDir (.beepTick true) = false := by decide

/-- `ThrottleLiterals`: 0.1 rounds up to `0x3DCCCCCD`, and `1e40` is past the greatest finite value. -/
theorem test_premises_ThrottleLiterals :
    (ThrLit.decimal false 1 1).word = 0x3DCCCCCD ∧ (ThrLit.decimal true (10 ^ 40) 0).word = 0xFF800000 := by decide +kernel

/-- `PseudoCommandsExpand`: a BEEPFRAME of five commands (R62), and a line just in and just out of range (R61). -/
theorem test_premises_PseudoCommandsExpand :
    (assemble (.beepFrame 1)).map (fun l => l.map Command.cmd) =
        some [0x00020041, 0x00020051, 0x00020061, 0x00020071, 0x00000002] ∧
      (assemble (.map 2 (.bits 0x3F000000) (2 ^ 32 - 1) 1 1)) = some [⟨0x00180023, 0x3F000000, 0xFFFFFFFF⟩] ∧
      (assemble (.throttle 3 (.bits 0) (2 ^ 32) 0 0)) = none ∧ (assemble (.throttle 3 (.bits 0) 0 2 0)) = none ∧
      (assemble (.beepTick 0 2)) = none := by decide

end Sys2Proof.Tests
end

section
/-! The encoder's OR write, bit by bit (R38). -/
namespace Sys2Proof.Machine

/-- The lane mask as a whole byte: bits 7..4 too, which `laneBit_getLsbD` leaves out. -/
theorem laneBit_getLsbD_byte : ∀ (ch : Channel) (b : Fin 8),
    (laneBit ch).getLsbD b.val = decide (b.val = ch.val) := by decide

/-- An OR write as one OR into every slot, with mask 0 away from the slot written: R38's "leaves every other bit". -/
theorem State.tlRead_tlOr_eq_or (s : State) (i j : Slot) (ch : Channel) :
    (s.tlOr i ch).tlRead j = s.tlRead j ||| if j = i then laneBit ch else 0 := by
  rw [State.tlRead_tlOr]
  by_cases h : j = i
  · subst h; simp
  · simp [h]

theorem State.getLsbD_tlRead_tlOr (s : State) (i j : Slot) (ch : Channel) (b : Fin 8) :
    ((s.tlOr i ch).tlRead j).getLsbD b.val =
      ((s.tlRead j).getLsbD b.val || (decide (j = i) && decide (b.val = ch.val))) := by
  rw [State.tlRead_tlOr_eq_or, BitVec.getLsbD_or]
  by_cases h : j = i
  · rw [if_pos h, laneBit_getLsbD_byte, decide_eq_true h, Bool.true_and]
  · simp [h]

theorem State.tlRead_tlOr_comm (s : State) (i i' j : Slot) (ch ch' : Channel) :
    ((s.tlOr i ch).tlOr i' ch').tlRead j = ((s.tlOr i' ch').tlOr i ch).tlRead j := by
  simp only [State.tlRead_tlOr_eq_or]
  rw [BitVec.or_assoc, BitVec.or_assoc, BitVec.or_comm (if j = i then _ else _)]

/-- Settles O22: both clauses follow from the OR form of the write, the order from `|||` being commutative. -/
theorem orWriteSetsOneBit : Obligations.OrWriteSetsOneBit :=
  ⟨State.getLsbD_tlRead_tlOr, State.tlRead_tlOr_comm⟩

end Sys2Proof.Machine
end

section
/-! Command words and the opcode table's rows (30_encoding.md R52, R57). -/
namespace Sys2Proof

theorem Fields.illegality_eq_none_iff (f : Fields) :
    f.illegality = none ↔ f.rsv = 0 ∧ f.opDefined = true ∧ f.unusedZero = true := by
  unfold Fields.illegality
  split
  · next h => simp only [reduceCtorEq, h, false_and]
  · next h => cases f.opDefined <;> cases f.unusedZero <;> simp [not_not.1 h]

/-- A legal word's fields are those of the command they name: the fields it does not use are 0 (R57). -/
theorem Fields.eq_fields_of_toInstr {f : Fields} {i : Instr} (hl : f.illegality = none) (hi : f.toInstr = some i) :
    f = i.fields := by
  obtain ⟨op, ch, val, tlm, dir, gnd, fs, rsv⟩ := f
  obtain ⟨rfl : rsv = 0, -, hunused⟩ := (Fields.illegality_eq_none_iff _).1 hl
  simp only [Fields.toInstr] at hi
  split at hi <;> rename_i hop
  case h_7 => cases hi
  all_goals
    cases hi
    simp only [Fields.unusedZero, hop, Bool.and_eq_true, beq_iff_eq] at hunused
    simp [Instr.fields, hunused, flagBit_flagOf, directionBit_directionOf, ← BitVec.toNat_inj, hop]

theorem Instr.toInstr_fields (i : Instr) : i.fields.toInstr = some i := by
  cases i <;> simp [Instr.fields, Fields.toInstr]

theorem Instr.illegality_fields (i : Instr) : i.fields.illegality = none := by
  cases i <;> rfl

/-- A word decodes to a command exactly when its fields are the command's (R52, R57). -/
theorem decode_eq_ok_iff {w : Word} {i : Instr} : decode w = .ok i ↔ Fields.ofWord w = i.fields := by
  constructor
  · intro h
    unfold decode at h
    split at h
    · cases h
    · next hl =>
      split at h
      · next hi => cases h; exact Fields.eq_fields_of_toInstr hl hi
      · cases h
  · intro h
    simp only [decode, h, Instr.illegality_fields, Instr.toInstr_fields]

theorem Fields.ofWord_injective : Function.Injective Fields.ofWord :=
  Function.LeftInverse.injective Fields.toWord_ofWord

theorem OpcodeRow.accepts_iff_fields (r : OpcodeRow) (w : Word) :
    r.accepts w = true ↔ Fields.ofWord (w &&& r.mask) = Fields.ofWord r.pattern := by
  rw [Fields.ofWord_injective.eq_iff, OpcodeRow.accepts, beq_iff_eq]

/-- Where the mask is all ones, a word of the row has the bits of the row's pattern. -/
theorem OpcodeRow.extractLsb'_of_accepts {r : OpcodeRow} {w : Word} (h : r.accepts w = true) {start len : Nat}
    (hm : r.mask.extractLsb' start len = BitVec.allOnes len) :
    w.extractLsb' start len = r.pattern.extractLsb' start len := by
  rw [← beq_iff_eq.1 h, BitVec.extractLsb'_and, hm, BitVec.and_allOnes]

/-- A word of a row is a word of the row's command: the row fixes all of the word but the command's operands. -/
theorem OpcodeRow.exists_decode_of_accepts {r : OpcodeRow} (hr : r ∈ opcodeTable) {w : Word} (h : r.accepts w = true) :
    ∃ i, decode w = .ok i ∧ i.mnemonic = r.mnemonic := by
  simp only [decode_eq_ok_iff]
  have fixed := @OpcodeRow.extractLsb'_of_accepts r w h
  fin_cases hr
  · refine ⟨.encode (Fields.ofWord w).ch.toFin (Fields.ofWord w).val (flagOf (Fields.ofWord w).tlm), ?_, rfl⟩
    simp [Fields.ofWord, Instr.fields, fixed, flagBit_flagOf, -BitVec.toFin_extractLsb']
  · refine ⟨.transmit, ?_, rfl⟩
    simp [Fields.ofWord, Instr.fields, fixed]
  · refine ⟨.map (Fields.ofWord w).ch.toFin (flagOf (Fields.ofWord w).gnd) (flagOf (Fields.ofWord w).fs), ?_, rfl⟩
    simp [Fields.ofWord, Instr.fields, fixed, flagBit_flagOf, -BitVec.toFin_extractLsb']
  · refine ⟨.throttle (Fields.ofWord w).ch.toFin (flagOf (Fields.ofWord w).gnd) (flagOf (Fields.ofWord w).fs), ?_, rfl⟩
    simp [Fields.ofWord, Instr.fields, fixed, flagBit_flagOf, -BitVec.toFin_extractLsb']
  · refine ⟨.beepTick (flagOf (Fields.ofWord w).fs), ?_, rfl⟩
    simp [Fields.ofWord, Instr.fields, fixed, flagBit_flagOf]
  · refine ⟨.setDir (directionOf (Fields.ofWord w).dir), ?_, rfl⟩
    simp [Fields.ofWord, Instr.fields, fixed, directionBit_directionOf]

/-- A command's word is accepted by the row with the command's mnemonic. -/
theorem exists_row_accepts_of_decode {w : Word} {i : Instr} (h : decode w = .ok i) :
    ∃ r ∈ opcodeTable, r.mnemonic = i.mnemonic ∧ r.accepts w = true := by
  rw [decode_eq_ok_iff] at h
  cases i
  all_goals
    simp only [Fields.ofWord, Instr.fields, Fields.mk.injEq] at h
    simp [opcodeTable, OpcodeRow.accepts_iff_fields, Fields.ofWord, Instr.mnemonic, BitVec.extractLsb'_and, h]

theorem OpcodeRow.eq_of_mnemonic : ∀ r ∈ opcodeTable, ∀ q ∈ opcodeTable, r.mnemonic = q.mnemonic → r = q := by decide

theorem OpcodeRow.accepts_iff_decode {r : OpcodeRow} (hr : r ∈ opcodeTable) (w : Word) :
    r.accepts w = true ↔ ∃ i, decode w = .ok i ∧ i.mnemonic = r.mnemonic := by
  refine ⟨OpcodeRow.exists_decode_of_accepts hr, ?_⟩
  rintro ⟨i, hi, hir⟩
  obtain ⟨q, hq, hqi, haccepts⟩ := exists_row_accepts_of_decode hi
  rwa [OpcodeRow.eq_of_mnemonic r hr q hq (hqi.trans hir).symm]

/-- Settles O3: the first clause row by row; the other two follow from it, mnemonics telling rows apart and every
command having a row. -/
theorem opcodeTableDecodes : Obligations.OpcodeTableDecodes := by
  refine ⟨fun w r hr => OpcodeRow.accepts_iff_decode hr w, fun w r hr q hq hrw hqw => ?_, fun w hw => ?_⟩
  · obtain ⟨i, hi, hir⟩ := OpcodeRow.exists_decode_of_accepts hr hrw
    obtain ⟨j, hj, hjq⟩ := OpcodeRow.exists_decode_of_accepts hq hqw
    obtain rfl : i = j := Except.ok.inj (hi.symm.trans hj)
    exact OpcodeRow.eq_of_mnemonic r hr q hq (hir.symm.trans hjq)
  · cases hd : decode w with
    | error e => exact ⟨e, rfl⟩
    | ok i =>
      obtain ⟨r, hr, -, haccepts⟩ := exists_row_accepts_of_decode hd
      exact absurd haccepts (by simp [hw r hr])

end Sys2Proof
end

section
/-! A step with an illegal word (30_encoding.md R58). -/
namespace Sys2Proof.Machine

theorem opcodeOf_eq_extractLsb' (w : Word) : opcodeOf w = (w.extractLsb' 0 4).toNat := by
  simp [opcodeOf]

/-- Every field that R58 looks at is fixed by the row that accepts the word. -/
theorem not_illegalByFields_of_accepts {r : OpcodeRow} (hr : r ∈ opcodeTable) {w : Word} (h : r.accepts w = true) :
    ¬ illegalByFields w := by
  have fixed := @OpcodeRow.extractLsb'_of_accepts r w h
  fin_cases hr <;> simp [illegalByFields, opcodeOf_eq_extractLsb', fixed]

theorem exists_decode_eq_error {w : Word} (h : illegalByFields w) : ∃ r, decode w = .error r := by
  cases hd : decode w with
  | error e => exact ⟨e, rfl⟩
  | ok i =>
    obtain ⟨r, hr, -, haccepts⟩ := exists_row_accepts_of_decode hd
    exact absurd h (not_illegalByFields_of_accepts hr haccepts)

theorem runCommand_of_illegalByFields {c : Command} (h : illegalByFields c.cmd) (s : State) :
    runCommand c s = .next (s.present c).illegalCommand := by
  obtain ⟨e, he⟩ := exists_decode_eq_error h
  simp only [runCommand, he]

theorem State.mem_faults_raiseFault (s : State) (f g : ModelFault) :
    f ∈ (s.raiseFault g).faults ↔ f ∈ s.faults ∨ f = g := by
  rw [State.raiseFault_faults]
  constructor
  · exact fun h => (mem_insertBy h).symm
  · rintro (h | rfl)
    · exact mem_insertBy_of_mem ModelFault.key_injective h
    · exact self_mem_insertBy _ _ _

/-- Settles O6: the decoder refuses the word, so the step is `State.illegalCommand`, which writes `RESP` and the fault
set only. -/
theorem illegalWordStep : Obligations.IllegalWordStep := by
  intro s c rest hcfg hhost hillegal
  refine ⟨((s.setHost rest).present c).illegalCommand, ?_, rfl, fun f => ?_⟩
  · rw [step_of_host hcfg hhost]
    exact runCommand_of_illegalByFields hillegal _
  · exact State.mem_faults_raiseFault ((s.setHost rest).present c) f (.illegalCommand c.cmd)

end Sys2Proof.Machine
end

section
/-! The 12-bit field and its checksum (40_frame_encoder.md R64, R65). -/
namespace Sys2Proof.Machine

theorem frameField_eq_shiftLeft_or (value : Value) (tlm : Bool) :
    frameField value tlm = (value.setWidth 12 <<< 1) ||| (BitVec.ofBool tlm).setWidth 12 := by
  rw [frameField, BitVec.append_def, BitVec.shiftLeftZeroExtend_eq, BitVec.setWidth'_eq]

theorem frameField_extractLsb' (value : Value) (tlm : Bool) : (frameField value tlm).extractLsb' 1 11 = value :=
  BitVec.extractLsb'_append_eq_left

theorem frameField_getLsbD_zero (value : Value) (tlm : Bool) : (frameField value tlm).getLsbD 0 = tlm := by
  rw [frameField, BitVec.getLsbD_append, if_pos Nat.one_pos, BitVec.getLsbD_ofBool, decide_eq_true rfl, Bool.true_and]

theorem getLsbD_lowNibbleMask : ∀ i : Fin 12, (15#12).getLsbD i.val = decide (i.val < 4) := by decide

/-- R65's two forms of the checksum: below bit 4 both are the XOR of `f`'s bits `i`, `4 + i` and `8 + i`, from bit 4 on
both are 0. -/
theorem nibbleXor_setWidth (f : BitVec 12) :
    (nibbleXor f).setWidth 12 = (f ^^^ (f >>> 4) ^^^ (f >>> 8)) &&& 15#12 := by
  refine BitVec.eq_of_getLsbD_eq fun i hi => ?_
  rw [BitVec.getLsbD_and, getLsbD_lowNibbleMask ⟨i, hi⟩]
  by_cases h : i < 4
  · simp [nibbleXor, h, hi]
  · have hzero : (nibbleXor f).getLsbD i = false := BitVec.getLsbD_of_ge _ i (Nat.not_lt.1 h)
    simp [h, hzero]

/-- Settles O20: R64's two readings of the field, then R65's two forms of the checksum. -/
theorem fieldAndChecksum : Obligations.FieldAndChecksum :=
  ⟨fun value tlm => ⟨frameField_eq_shiftLeft_or value tlm, frameField_extractLsb' value tlm,
    frameField_getLsbD_zero value tlm⟩, fun f => ⟨rfl, nibbleXor_setWidth f⟩⟩

end Sys2Proof.Machine
end

section
/-! ENCODE, whole: its result and its frame (40_frame_encoder.md R66, R68, R70, R71). -/
namespace Sys2Proof.Machine

theorem exec_encode (ch : Channel) (value : Value) (tlm : Bool) (s : State) :
    exec (.encode ch value tlm) s = .next ((encodeBody ch value tlm s).setResp 0) := rfl

/-- The encoded channel's lane gains the frame's pulses (R68, R70). -/
theorem lane_encodeBody_same (ch : Channel) (value : Value) (tlm : Bool) (s : State) (i : Slot) :
    (encodeBody ch value tlm s).lane ch i = (s.lane ch i || pulse (frame value tlm) i) := by
  rw [lane_encodeBody, decide_eq_true rfl, Bool.true_and]

/-- An encode leaves the other channels' lanes alone (R70, R72). -/
theorem lane_encodeBody_of_ne {ch ch' : Channel} (h : ch' ≠ ch) (value : Value) (tlm : Bool) (s : State) (i : Slot) :
    (encodeBody ch value tlm s).lane ch' i = s.lane ch' i := by
  rw [lane_encodeBody, decide_eq_false h, Bool.false_and, Bool.or_false]

/-- The encoded channel's four slots of one protocol bit: high, the frame's bit twice, as it was (R68). -/
theorem lane_encodeBody_slotOf (ch : Channel) (value : Value) (tlm : Bool) (s : State) (k : BitIx) :
    (encodeBody ch value tlm s).lane ch (slotOf k 0) = true ∧
    (encodeBody ch value tlm s).lane ch (slotOf k 1) = (s.lane ch (slotOf k 1) || frameBit (frame value tlm) k) ∧
    (encodeBody ch value tlm s).lane ch (slotOf k 2) = (s.lane ch (slotOf k 2) || frameBit (frame value tlm) k) ∧
    (encodeBody ch value tlm s).lane ch (slotOf k 3) = s.lane ch (slotOf k 3) := by
  simp [lane_encodeBody_same, pulse_slotOf]

/-- An encode leaves bits 7..4 of every slot alone (R68). -/
theorem encodeBody_tlRead_high (ch : Channel) (value : Value) (tlm : Bool) (s : State) (i : Slot) :
    ((encodeBody ch value tlm s).tlRead i).extractLsb' 4 4 = (s.tlRead i).extractLsb' 4 4 := by
  rw [encodeBody_tlRead]
  split
  · exact high_or_laneBit _ _
  · exact congrArg _ BitVec.or_zero

/-- ENCODE writes the timeline, `ENC_MASK`, `HAZ` and `RESP`, and nothing else (R70). -/
theorem encodeBody_setResp_frame (ch : Channel) (value : Value) (tlm : Bool) (s : State) (r : BitVec 16) :
    (encodeBody ch value tlm s).setResp r =
      { s with
        tl := (encodeBody ch value tlm s).tl
        encMask := (encodeBody ch value tlm s).encMask
        haz := (encodeBody ch value tlm s).haz
        resp := r } := by
  rw [encodeBody_eq]; rfl

/-- Settles O23: ENCODE ends in the shared body with `RESP` 0, and each clause is a fact about the body. -/
theorem encodeResult : Obligations.EncodeResult := by
  intro ch value tlm s
  refine ⟨(encodeBody ch value tlm s).setResp 0, exec_encode ch value tlm s, ?frame, ?slots, ?lanes, ?high, ?mask, ?haz⟩
  case frame => exact encodeBody_setResp_frame ch value tlm s 0
  case slots => exact lane_encodeBody_slotOf ch value tlm s
  case lanes => exact fun ch' i h => lane_encodeBody_of_ne h value tlm s i
  case high => exact encodeBody_tlRead_high ch value tlm s
  case mask => exact fun ch' => encMask_encodeBody ch ch' value tlm s
  case haz => exact mem_haz_encodeBody ch value tlm s

end Sys2Proof.Machine
end

section
/-! The failsafe latch, case by case (42_throttle_failsafe.md R92). -/
namespace Sys2Proof.Machine

/-- The elapsed time is the difference modulo `2 ^ 32`, across the counter's wrap too (R16). -/
theorem elapsed_toNat (now t : Word) : (elapsed now t).toNat = (now.toNat + 2 ^ 32 - t.toNat) % 2 ^ 32 := by
  have ht : t.toNat ≤ 2 ^ 32 := t.isLt.le
  rw [elapsed, BitVec.toNat_sub', ← Nat.add_sub_assoc ht]

/-- A timed failsafe is in its grace period up to and including 100000 µs (R92). -/
theorem failsafeLatch_grace {now t : Word} (h : t ≠ 0) (he : (elapsed now t).toNat ≤ 100000) :
    failsafeLatch true now t = ⟨t, false, .grace⟩ := by
  rw [failsafeLatch_timed h, if_neg he.not_gt]

/-- A timed failsafe is cut off after more than 100000 µs (R92). -/
theorem failsafeLatch_cutoff {now t : Word} (h : t ≠ 0) (he : 100000 < (elapsed now t).toNat) :
    failsafeLatch true now t = ⟨t, true, .cutoff⟩ := by
  rw [failsafeLatch_timed h, if_pos he]

/-- Settles O41: one lemma per case of the latch, with the elapsed time of the timed cases written out. -/
theorem latchCases : Obligations.LatchCases := by
  intro now t
  rw [← elapsed_toNat]
  exact ⟨failsafeLatch_clear now t, failsafeLatch_onset, failsafeLatch_untimed, failsafeLatch_grace, failsafeLatch_cutoff⟩

end Sys2Proof.Machine
end

section
/-! The configuration check before every step (70_reset_and_hazards.md R113). -/
namespace Sys2Proof.Machine

/-- Settles O13: a step runs the configuration check first and reads the host's input only when it passes. -/
theorem illFormedCfgRefused : Obligations.IllFormedCfgRefused := by
  intro s k hcheck
  simp only [step, hcheck]

end Sys2Proof.Machine
end

section
/-! RESET between commands (70_reset_and_hazards.md R128). -/
namespace Sys2Proof.Machine

/-- RESET empties the timeline: every slot reads as the reset contents (R35). -/
@[simp] theorem State.applyReset_tlRead (s : State) (i : Slot) : s.applyReset.tlRead i = 0 := rfl

/-- A RESET input is taken from the host's list and resets the block in the same step (R128). -/
theorem step_of_reset {s : State} (hc : failingCheck s.cfg = none) {rest : List HostInput}
    (hh : s.host = .reset :: rest) : step s = .next (s.setHost rest).applyReset :=
  step_of_host hc hh

/-- Settles O10: the step ends in `State.applyReset`, whose fields are R35's values; the configuration and the remaining
inputs come from the state before it. -/
theorem resetStep : Obligations.ResetStep := by
  intro s rest hc hh
  refine ⟨(s.setHost rest).applyReset, step_of_reset hc hh, State.applyReset_tlRead _, ?values⟩
  case values => simp

end Sys2Proof.Machine
end

section
/-! Command words and the commands they name (30_encoding.md R52, R53, R57, R58, R63). -/
namespace Sys2Proof

/-- Settles O1: the fields of the word are the command's own, and the decoder reads the word by its fields. -/
theorem decodeOfEncode : Obligations.DecodeOfEncode :=
  fun i => decode_eq_ok_iff.2 (ofWord_encode i)

/-- Settles O2: a legal word's fields are its command's fields, and a word is the word of its fields. -/
theorem encodeOfDecode : Obligations.EncodeOfDecode := by
  intro w i h
  calc encode i = (Fields.ofWord w).toWord := by rw [decode_eq_ok_iff.1 h]; rfl
    _ = w := Fields.toWord_ofWord w

/-- Settles O4: eight closed words, by evaluation of the decoder. -/
theorem exampleWordsDecode : Obligations.ExampleWordsDecode := by
  unfold Obligations.ExampleWordsDecode
  decide

/-- A range of bits inside a range of zeros is zero. -/
theorem extractLsb'_eq_zero_of_le {w : Word} {a n b m : Nat} (h : w.extractLsb' a n = 0) (hb : a ≤ b)
    (hm : b + m ≤ a + n) : w.extractLsb' b m = 0 := by
  refine BitVec.eq_of_getLsbD_eq fun i hi => ?_
  have hbit := congrArg (fun v => v.getLsbD (b - a + i)) h
  have hin : b - a + i < n := by omega
  have hat : a + (b - a + i) = b + i := by omega
  simpa [BitVec.getLsbD_extractLsb', hi, hin, hat] using hbit

/-- With an opcode that R57 defines and its unused fields 0, a word is legal (R58). -/
theorem illegality_eq_none_of_not_illegalByFields {w : Word} (h : ¬ Machine.illegalByFields w) :
    (Fields.ofWord w).illegality = none := by
  simp only [Machine.illegalByFields, Machine.opcodeOf_eq_extractLsb', not_or, not_and, not_not] at h
  obtain ⟨hop0, hop7, hrsv, hencode, htransmit, hmap, hbeep, hdir⟩ := h
  have hop : (Fields.ofWord w).op = w.extractLsb' 0 4 := rfl
  refine (Fields.illegality_eq_none_iff _).2 ⟨hrsv, ?defined, ?unused⟩
  case defined =>
    rw [Fields.opDefined, hop]
    simp only [Bool.and_eq_true, decide_eq_true_eq]
    omega
  case unused =>
    rw [Fields.unusedZero, hop]
    split
    case h_1 op => simp [Fields.ofWord, extractLsb'_eq_zero_of_le (hencode op)]
    case h_2 op => simp [Fields.ofWord, extractLsb'_eq_zero_of_le (htransmit op)]
    case h_3 op => simp [Fields.ofWord, extractLsb'_eq_zero_of_le (hmap (.inl op))]
    case h_4 op => simp [Fields.ofWord, extractLsb'_eq_zero_of_le (hmap (.inr op))]
    case h_5 op => simp [Fields.ofWord, extractLsb'_eq_zero_of_le (hbeep op)]
    case h_6 op =>
      simp [Fields.ofWord, extractLsb'_eq_zero_of_le (hdir op).1, extractLsb'_eq_zero_of_le (hdir op).2]
    case h_7 => rfl

/-- A word without an illegality names a command: its opcode is defined (R57, R58). -/
theorem exists_decode_eq_ok_of_illegality {w : Word} (h : (Fields.ofWord w).illegality = none) :
    ∃ i, decode w = .ok i := by
  obtain ⟨-, hdef, -⟩ := (Fields.illegality_eq_none_iff _).1 h
  have hsome : ∃ i, (Fields.ofWord w).toInstr = some i := by
    simp only [Fields.opDefined, Bool.and_eq_true, decide_eq_true_eq] at hdef
    unfold Fields.toInstr
    split
    case h_7 h1 h2 h3 h4 h5 h6 =>
      simp only [imp_false] at h1 h2 h3 h4 h5 h6
      omega
    all_goals exact ⟨_, rfl⟩
  obtain ⟨i, hi⟩ := hsome
  exact ⟨i, by simp only [decode, h, hi]⟩

/-- Settles O5: fields that no clause of R58 catches decode, and a row of the table fixes every field R58 looks at. -/
theorem illegalWordIff : Obligations.IllegalWordIff := by
  intro w
  refine ⟨fun ⟨r, hr⟩ => ?_, Machine.exists_decode_eq_error⟩
  by_contra hlegal
  obtain ⟨i, hi⟩ := exists_decode_eq_ok_of_illegality (illegality_eq_none_of_not_illegalByFields hlegal)
  exact nomatch hr.symm.trans hi

end Sys2Proof
end

section
/-! A step with a legal word, and a step without one (30_encoding.md R51, R57; 60_exceptions.md R125). -/
namespace Sys2Proof.Machine

theorem runCommand_of_decode {c : Command} {i : Instr} (h : decode c.cmd = .ok i) (s : State) :
    runCommand c s = exec i (s.present c) := by
  simp only [runCommand, h]

/-- Settles O7: the step takes the input from the list and runs the command that the word decodes to. -/
theorem stepRunsDecoded : Obligations.StepRunsDecoded := by
  intro s c rest i hcfg hhost hdecode
  rw [step_of_host hcfg hhost]
  exact runCommand_of_decode hdecode _

/-- Settles O8: the placed input is the command's word, which decodes to the command; taking it leaves the host's list. -/
theorem placedWordRuns : Obligations.PlacedWordRuns := by
  intro s i hcfg
  have hword : BitVec.ofNat 32 ((encode i).toNat % 2 ^ 32) = encode i := by
    rw [Nat.mod_eq_of_lt (encode i).isLt, BitVec.ofNat_toNat, BitVec.setWidth_eq]
  have hhost : (s.withFetchWord 32 (encode i).toNat).host = .command ⟨encode i, s.thr, s.now⟩ :: s.host := by
    rw [State.withFetchWord, hword, State.setHost_host]
  rw [step_of_host (s := s.withFetchWord 32 (encode i).toNat) hcfg hhost]
  exact runCommand_of_decode (c := ⟨encode i, s.thr, s.now⟩) (decodeOfEncode i) _

theorem step_of_host_nil {s : State} (hcfg : failingCheck s.cfg = none) (hhost : s.host = []) : step s = .next s := by
  simp only [step, hcfg, runNext, hhost]

/-- Settles O9: with an empty list the step is the idle step. -/
theorem idleStepKeepsState : Obligations.IdleStepKeepsState :=
  fun _ => step_of_host_nil

end Sys2Proof.Machine
end

section
/-! What executing a command can do, one constructor per way, and what each shared body leaves alone
(10_state.md R20). -/
namespace Sys2Proof.Machine

/-- The next states of `exec`: one constructor for each command, and one more for a NaN throttle and for a tick that
sends nothing. -/
inductive ExecNext (s : State) : Instr → State → Prop
  | encode (ch : Channel) (v : Value) (tlm : Bool) :
    ExecNext s (.encode ch v tlm) ((encodeBody ch v tlm s).setResp 0)
  | transmit : ExecNext s .transmit ((transmitBody s).setResp 0)
  | map (ch : Channel) (gnd fs : Bool) (hn : isNaN s.thr = false) : ExecNext s (.map ch gnd fs)
    ((s.setFsTime (s.latch fs).fsTime).setResp (mapResponse (s.latch fs).st (s.mapValue gnd fs)))
  | mapNan (ch : Channel) (gnd fs : Bool) (hn : isNaN s.thr = true) : ExecNext s (.map ch gnd fs) s.throttleNan
  | throttle (ch : Channel) (gnd fs : Bool) (hn : isNaN s.thr = false) : ExecNext s (.throttle ch gnd fs)
    ((transmitIfLast ch (encodeBody ch (s.mapValue gnd fs) false (s.setFsTime (s.latch fs).fsTime))).setResp
      (mapResponse (s.latch fs).st (s.mapValue gnd fs)))
  | throttleNan (ch : Channel) (gnd fs : Bool) (hn : isNaN s.thr = true) :
    ExecNext s (.throttle ch gnd fs) s.throttleNan
  | beepSent (fs : Bool) (code : Value) (hit : s.beepHit fs = some code) : ExecNext s (.beepTick fs)
    ((injectBeep code (s.setBeepTime (beepLatch fs s.now s.beepTime))).setResp
      (beepResponse true (s.beepState fs) code))
  | beepSilent (fs : Bool) (hit : s.beepHit fs = none) : ExecNext s (.beepTick fs)
    ((s.setBeepTime (beepLatch fs s.now s.beepTime)).setResp (beepResponse false (s.beepState fs) 0))
  | setDir (d : Direction) : ExecNext s (.setDir d) ((s.setDir d).setResp 0)

theorem ExecNext.exec_eq {s t : State} {i : Instr} (h : ExecNext s i t) : exec i s = .next t := by
  cases h with
  | encode ch v tlm => rfl
  | transmit => rfl
  | map ch gnd fs hn => exact exec_map_of_number ch gnd fs s hn
  | mapNan ch gnd fs hn => exact (exec_map_of_nan ch gnd fs s hn).1
  | throttle ch gnd fs hn => exact exec_throttle_of_number ch gnd fs s hn
  | throttleNan ch gnd fs hn => exact (exec_map_of_nan ch gnd fs s hn).2
  | beepSent fs code hit => exact exec_beepTick_of_hit fs s hit
  | beepSilent fs hit => exact exec_beepTick_of_silent fs s hit
  | setDir d => rfl

/-- Every command completes: no command faults and none is refused (60_exceptions.md R110). -/
theorem exists_execNext (i : Instr) (s : State) : ∃ t, ExecNext s i t := by
  cases i with
  | encode ch v tlm => exact ⟨_, .encode ch v tlm⟩
  | transmit => exact ⟨_, .transmit⟩
  | map ch gnd fs =>
    cases hn : isNaN s.thr with
    | false => exact ⟨_, .map ch gnd fs hn⟩
    | true => exact ⟨_, .mapNan ch gnd fs hn⟩
  | throttle ch gnd fs =>
    cases hn : isNaN s.thr with
    | false => exact ⟨_, .throttle ch gnd fs hn⟩
    | true => exact ⟨_, .throttleNan ch gnd fs hn⟩
  | beepTick fs =>
    cases hit : s.beepHit fs with
    | none => exact ⟨_, .beepSilent fs hit⟩
    | some code => exact ⟨_, .beepSent fs code hit⟩
  | setDir d => exact ⟨_, .setDir d⟩

theorem exec_eq_next_iff {s t : State} {i : Instr} : exec i s = .next t ↔ ExecNext s i t := by
  refine ⟨fun h => ?_, ExecNext.exec_eq⟩
  obtain ⟨u, hu⟩ := exists_execNext i s
  obtain rfl : u = t := Host.Outcome.next.inj (hu.exec_eq.symm.trans h)
  exact hu

/-- The ENCODE body writes the timeline, `ENC_MASK` and `HAZ` only (R70). -/
@[simp] theorem encodeBody_keeps (ch : Channel) (v : Value) (tlm : Bool) (s : State) :
    (encodeBody ch v tlm s).cfg = s.cfg ∧ (encodeBody ch v tlm s).dir = s.dir ∧
      (encodeBody ch v tlm s).fsTime = s.fsTime ∧ (encodeBody ch v tlm s).beepTime = s.beepTime ∧
      (encodeBody ch v tlm s).pin = s.pin ∧ (encodeBody ch v tlm s).resp = s.resp ∧
      (encodeBody ch v tlm s).faults = s.faults ∧ (encodeBody ch v tlm s).trace = s.trace ∧
      (encodeBody ch v tlm s).past = s.past ∧ (encodeBody ch v tlm s).cmd = s.cmd ∧
      (encodeBody ch v tlm s).thr = s.thr ∧ (encodeBody ch v tlm s).now = s.now ∧
      (encodeBody ch v tlm s).host = s.host := by
  rw [encodeBody_eq]
  simp only [and_self]

/-- The TRANSMIT body writes the timeline, the lines, the trace and `ENC_MASK` only (R75). -/
@[simp] theorem transmitBody_keeps (s : State) :
    (transmitBody s).cfg = s.cfg ∧ (transmitBody s).dir = s.dir ∧ (transmitBody s).fsTime = s.fsTime ∧
      (transmitBody s).beepTime = s.beepTime ∧ (transmitBody s).resp = s.resp ∧ (transmitBody s).haz = s.haz ∧
      (transmitBody s).faults = s.faults ∧ (transmitBody s).past = s.past ∧ (transmitBody s).cmd = s.cmd ∧
      (transmitBody s).thr = s.thr ∧ (transmitBody s).now = s.now ∧ (transmitBody s).host = s.host := by
  rw [transmitBody_eq]
  simp only [and_self]

@[simp] theorem transmitBody_encMask (s : State) : (transmitBody s).encMask = 0 := by rw [transmitBody_eq]

/-- A send records no hazard (R75). -/
theorem transmitBody_haz (s : State) : (transmitBody s).haz = s.haz := by rw [transmitBody_eq]

/-- The four encodes of a beep as one name: the state that the beep's TRANSMIT sends (43_beep.md R103). -/
def encodeAll (code : Value) (s : State) : State := allChannels.foldl (fun s' ch => encodeBody ch code true s') s

theorem injectBeep_eq (code : Value) (s : State) : injectBeep code s = transmitBody (encodeAll code s) := rfl

theorem injectBeep_haz (code : Value) (s : State) : (injectBeep code s).haz = (encodeAll code s).haz :=
  transmitBody_haz (encodeAll code s)

theorem encodeAll_eq (code : Value) (s : State) :
    encodeAll code s =
      encodeBody 3 code true (encodeBody 2 code true (encodeBody 1 code true (encodeBody 0 code true s))) := rfl

/-- What the transmit trigger does on the other channels and on channel 3 (42_throttle_failsafe.md R97). -/
theorem transmitIfLast_of_ne {ch : Channel} (h : ch ≠ 3) (s : State) : transmitIfLast ch s = s := if_neg h

@[simp] theorem transmitIfLast_three (s : State) : transmitIfLast 3 s = transmitBody s := rfl

theorem transmitIfLast_haz (ch : Channel) (s : State) : (transmitIfLast ch s).haz = s.haz := by
  unfold transmitIfLast
  split
  · exact transmitBody_haz s
  · rfl

/-- What the transmit trigger leaves alone, whatever the channel. -/
@[simp] theorem transmitIfLast_keeps (ch : Channel) (s : State) :
    (transmitIfLast ch s).cfg = s.cfg ∧ (transmitIfLast ch s).dir = s.dir ∧ (transmitIfLast ch s).fsTime = s.fsTime ∧
      (transmitIfLast ch s).beepTime = s.beepTime ∧ (transmitIfLast ch s).resp = s.resp ∧
      (transmitIfLast ch s).haz = s.haz ∧ (transmitIfLast ch s).faults = s.faults ∧
      (transmitIfLast ch s).past = s.past ∧ (transmitIfLast ch s).cmd = s.cmd ∧ (transmitIfLast ch s).thr = s.thr ∧
      (transmitIfLast ch s).now = s.now ∧ (transmitIfLast ch s).host = s.host := by
  unfold transmitIfLast
  split
  · exact transmitBody_keeps s
  · simp only [and_self]

end Sys2Proof.Machine
end

section
/-! Every step keeps the invariant, from reset on (10_state.md R29, R35). -/
namespace Sys2Proof.Machine

theorem State.Inv.throttleNan {s : State} (h : s.Inv) : s.throttleNan.Inv := h.raiseFault _

theorem State.Inv.illegalCommand {s : State} (h : s.Inv) : s.illegalCommand.Inv := (h.raiseFault _).setResp 0

theorem State.Inv.transmitIfLast {s : State} (h : s.Inv) (ch : Channel) : (transmitIfLast ch s).Inv := by
  unfold Machine.transmitIfLast
  split
  · exact h.transmitBody
  · exact h

theorem ExecNext.inv {s t : State} {i : Instr} (h : ExecNext s i t) (hs : s.Inv) : t.Inv := by
  cases h with
  | encode ch v tlm => exact (hs.encodeBody ch v tlm).setResp 0
  | transmit => exact hs.transmitBody.setResp 0
  | map ch gnd fs hn => exact (hs.setFsTime _).setResp _
  | mapNan ch gnd fs hn => exact hs.throttleNan
  | throttle ch gnd fs hn => exact (((hs.setFsTime _).encodeBody ch _ false).transmitIfLast ch).setResp _
  | throttleNan ch gnd fs hn => exact hs.throttleNan
  | beepSent fs code hit => exact ((hs.setBeepTime _).injectBeep code).setResp _
  | beepSilent fs hit => exact (hs.setBeepTime _).setResp _
  | setDir d => exact (hs.setDir d).setResp 0

@[simp] theorem State.resetWith_tlRead (c : Cfg) (i : Slot) : (State.resetWith c).tlRead i = 0 := rfl

@[simp] theorem State.resetWith_lane (c : Cfg) (ch : Channel) (i : Slot) : (State.resetWith c).lane ch i = false := by
  rw [State.lane, State.resetWith_tlRead]
  exact BitVec.getLsbD_zero

/-- Settles O16: each value is a field of `State.resetWith`. -/
theorem resetValues : Obligations.ResetValues :=
  ⟨rfl, fun c => ⟨State.resetWith_tlRead c, rfl, rfl, rfl, rfl, rfl, rfl, rfl, rfl⟩⟩

/-- Settles O17: the reset state's timeline, sets and lines are empty, and no channel is encoded. -/
theorem resetMeetsInv : Obligations.ResetMeetsInv := by
  intro c
  have hmask : (State.resetWith c).encMask = 0 := rfl
  exact ⟨Memory.wf_nil, fun i => by rw [State.resetWith_tlRead]; rfl, fun ch k => by simp [hmask], .nil, .nil, rfl⟩

/-- A reset, whatever was aborted, ends in the reset state under the same configuration (R35, R128, R129). -/
theorem State.Inv.applyReset (s : State) : s.applyReset.Inv := resetMeetsInv s.cfg

theorem runCommand_inv {c : Command} {s t : State} (h : runCommand c s = .next t) (hs : s.Inv) : t.Inv := by
  obtain ⟨i, -, hi⟩ | ⟨-, rfl⟩ := runCommand_cases h
  · exact (exec_eq_next_iff.1 hi).inv (hs.present c)
  · exact (hs.present c).illegalCommand

theorem resetDuring_inv (c : Command) (n : Nat) (s : State) : (resetDuring c n s).Inv := by
  unfold resetDuring
  split <;> exact State.Inv.applyReset _

theorem runInput_inv {input : HostInput} {s t : State} (h : runInput input s = .next t) (hs : s.Inv) : t.Inv := by
  cases input with
  | command c => exact runCommand_inv h hs
  | reset =>
    obtain rfl := Host.Outcome.next.inj h
    exact State.Inv.applyReset s
  | resetDuring c n =>
    obtain rfl := Host.Outcome.next.inj h
    exact resetDuring_inv c n s

/-- Settles O18: a step is idle or runs one input, and every input keeps the invariant. -/
theorem stepKeepsInv : Obligations.StepKeepsInv := by
  intro s t hs hstep
  obtain ⟨-, ⟨-, rfl⟩ | ⟨input, rest, -, hrun⟩⟩ := step_cases hstep
  · exact hs
  · exact runInput_inv hrun (hs.setHost rest)

theorem State.not_encoded_of_encMask_eq_zero {s : State} (h : s.encMask = 0) (ch : Channel) :
    s.encMask.getLsbD ch.val = false := by
  rw [h]
  exact BitVec.getLsbD_zero

/-- A slot of an invariant state is 0 when each of its lanes is. -/
theorem State.Inv.tlRead_eq_zero {s : State} (h : s.Inv) {i : Slot} (hl : ∀ ch, s.lane ch i = false) :
    s.tlRead i = 0 := by
  obtain ⟨-, hhigh, -⟩ := h
  exact byte_eq_of_lanes (fun ch => (hl ch).trans BitVec.getLsbD_zero.symm) (hhigh i)

theorem State.Inv.tl_eq_nil {s : State} (h : s.Inv) (hzero : ∀ i, s.tlRead i = 0) : s.tl = [] :=
  Memory.eq_of_read h.wf Memory.wf_nil hzero

/-- Settles O19: the lanes of channels that are not encoded are empty, so every slot is 0, and the canonical timeline
that reads 0 everywhere is the empty one. -/
theorem invEmptyTimeline : Obligations.InvEmptyTimeline := by
  intro s hs hmask
  exact hs.tl_eq_nil fun i => hs.tlRead_eq_zero fun ch =>
    hs.lane_eq_false (State.not_encoded_of_encMask_eq_zero hmask ch) i

end Sys2Proof.Machine
end

section
/-! A well-formed configuration always steps, and what a RESET during a command leaves (60_exceptions.md R110, R116;
70_reset_and_hazards.md R129). -/
namespace Sys2Proof.Machine

theorem exists_runCommand_eq_next (c : Command) (s : State) : ∃ t, runCommand c s = .next t := by
  cases hd : decode c.cmd with
  | ok i =>
    obtain ⟨t, ht⟩ := exists_execNext i (s.present c)
    exact ⟨t, (runCommand_of_decode hd s).trans ht.exec_eq⟩
  | error r => exact ⟨(s.present c).illegalCommand, by simp only [runCommand, hd]⟩

/-- Settles O14: an idle step keeps the state, and every input has a next state. -/
theorem wellFormedCfgSteps : Obligations.WellFormedCfgSteps := by
  intro s hcfg
  cases hhost : s.host with
  | nil => exact ⟨s, step_of_host_nil hcfg hhost⟩
  | cons input rest =>
    rw [step_of_host hcfg hhost]
    cases input with
    | command c => exact exists_runCommand_eq_next c _
    | reset => exact ⟨_, rfl⟩
    | resetDuring c n => exact ⟨_, rfl⟩

theorem injectBeep_trace (code : Value) (s : State) :
    (injectBeep code s).trace =
      s.trace ++ (transmitEvents (encodeAll code s) ++ [.txDone (encodeAll code s).encMask]) := by
  rw [injectBeep_eq, transmitBody_trace, encodeAll_eq]
  simp only [encodeBody_keeps]

/-- A command only appends to the trace (R76). -/
theorem ExecNext.exists_trace_eq {s t : State} {i : Instr} (h : ExecNext s i t) : ∃ new, t.trace = s.trace ++ new := by
  cases h with
  | encode ch v tlm => exact ⟨[], by simp⟩
  | transmit =>
    rw [State.setResp_trace, transmitBody_trace]
    exact ⟨_, rfl⟩
  | map ch gnd fs hn => exact ⟨[], by simp⟩
  | mapNan ch gnd fs hn => exact ⟨[], by simp [State.throttleNan]⟩
  | throttle ch gnd fs hn =>
    by_cases h3 : ch = 3
    · subst h3
      rw [State.setResp_trace, transmitIfLast_three, transmitBody_trace, encodeBody_trace]
      exact ⟨_, rfl⟩
    · rw [State.setResp_trace, transmitIfLast_of_ne h3, encodeBody_trace]
      exact ⟨[], by simp⟩
  | throttleNan ch gnd fs hn => exact ⟨[], by simp [State.throttleNan]⟩
  | beepSent fs code hit =>
    rw [State.setResp_trace, injectBeep_trace, State.setBeepTime_trace]
    exact ⟨_, rfl⟩
  | beepSilent fs hit => exact ⟨[], by simp⟩
  | setDir d => exact ⟨[], by simp⟩

/-- RESET during a command whose completion appends `new`: the reset state, with the first output events of `new` kept
in the ended run (R129). -/
theorem resetDuring_eq {c : Command} {s done : State} {new : List TraceRec} (n : Nat)
    (hrun : runCommand c s = .next done) (hnew : done.trace = s.trace ++ new) :
    resetDuring c n s =
      { State.resetWith s.cfg with
        past := s.past ++ [s.trace ++ (new.filter TraceRec.isPinWrite).take n]
        cmd := c.cmd, thr := c.thr, now := c.now, host := s.host } := by
  have hdrop : done.trace.drop (s.present c).trace.length = new := by
    rw [hnew, State.present_trace, List.drop_left]
  simp only [resetDuring, hrun, State.abort, hdrop]
  rfl

theorem step_of_resetDuring {s done : State} {c : Command} {n : Nat} {rest : List HostInput} {new : List TraceRec}
    (hcfg : failingCheck s.cfg = none) (hhost : s.host = .resetDuring c n :: rest)
    (hrun : runCommand c (s.setHost rest) = .next done) (hnew : done.trace = s.trace ++ new) :
    step s = .next { State.resetWith s.cfg with
      past := s.past ++ [s.trace ++ (new.filter TraceRec.isPinWrite).take n]
      cmd := c.cmd, thr := c.thr, now := c.now, host := rest } := by
  rw [step_of_host hcfg hhost]
  exact congrArg Host.Outcome.next (resetDuring_eq n hrun hnew)

/-- Settles O11: the completed TRANSMIT appends its 256 events and `TXDONE`, and only the events are output events. -/
theorem resetDuringTransmit : Obligations.ResetDuringTransmit := by
  intro s c n rest hcfg hhost hdecode
  have hrun := runCommand_of_decode hdecode (s.setHost rest)
  have hevents : transmitEvents ((s.setHost rest).present c) = transmitEvents s := transmitEvents_of_tl rfl
  have hfilter : (transmitEvents s ++ [TraceRec.txDone s.encMask]).filter TraceRec.isPinWrite = transmitEvents s := by
    rw [List.filter_append, transmitEvents_pinWrites]
    exact List.append_nil _
  rw [step_of_resetDuring (new := transmitEvents s ++ [.txDone s.encMask]) hcfg hhost hrun, hfilter]
  rw [State.setResp_trace, transmitBody_trace, hevents]
  rfl

/-- Settles O12: a legal command completes and appends to the trace, an illegal word completes and appends nothing. -/
theorem resetDuringCommand : Obligations.ResetDuringCommand := by
  refine ⟨fun s c n rest i hcfg hhost hdecode => ?legal, fun s c n rest hcfg hhost hillegal => ?illegal⟩
  case legal =>
    obtain ⟨done, hdone⟩ := exists_execNext i ((s.setHost rest).present c)
    obtain ⟨new, hnew⟩ := hdone.exists_trace_eq
    have hrun := (runCommand_of_decode hdecode (s.setHost rest)).trans hdone.exec_eq
    exact ⟨done, new, hdone.exec_eq, hnew, step_of_resetDuring hcfg hhost hrun hnew⟩
  case illegal =>
    have hrun := runCommand_of_illegalByFields hillegal (s.setHost rest)
    have hnew : ((s.setHost rest).present c).illegalCommand.trace = s.trace ++ [] := by simp
    simpa using step_of_resetDuring hcfg hhost hrun hnew

end Sys2Proof.Machine
end

section
/-! Which command writes which state, and that records are sticky (10_state.md R20, R30; 60_exceptions.md R112,
R114). `simp -implicitDefEqProofs` keeps each field lemma as a rewriting step of the proof: without it the kernel would
compare the states before and after a send by running its 64 slots. -/
namespace Sys2Proof.Machine

/-- Settles O32: SET_DIR's arm, with its two writes spelt out. -/
theorem setDirResult : Obligations.SetDirResult := fun _ _ => rfl

@[simp] theorem encodeAll_keeps (code : Value) (s : State) :
    (encodeAll code s).cfg = s.cfg ∧ (encodeAll code s).dir = s.dir ∧ (encodeAll code s).fsTime = s.fsTime ∧
      (encodeAll code s).beepTime = s.beepTime ∧ (encodeAll code s).pin = s.pin ∧ (encodeAll code s).resp = s.resp ∧
      (encodeAll code s).faults = s.faults ∧ (encodeAll code s).trace = s.trace ∧
      (encodeAll code s).past = s.past ∧ (encodeAll code s).cmd = s.cmd ∧ (encodeAll code s).thr = s.thr ∧
      (encodeAll code s).now = s.now ∧ (encodeAll code s).host = s.host := by
  rw [encodeAll_eq]
  simp only [encodeBody_keeps, and_self]

/-- What a command never writes: the configuration (R30), the earlier runs' traces, the buses and the host's list. -/
theorem ExecNext.keeps {s t : State} {i : Instr} (h : ExecNext s i t) :
    t.cfg = s.cfg ∧ t.past = s.past ∧ t.cmd = s.cmd ∧ t.thr = s.thr ∧ t.now = s.now ∧ t.host = s.host := by
  cases h <;> simp -implicitDefEqProofs [State.throttleNan, injectBeep_eq]

theorem ExecNext.dir {s t : State} {i : Instr} (h : ExecNext s i t) : t.dir = s.dir ∨ ∃ d, i = .setDir d := by
  cases h <;> simp -implicitDefEqProofs [State.throttleNan, injectBeep_eq]

theorem ExecNext.fsTime {s t : State} {i : Instr} (h : ExecNext s i t) :
    t.fsTime = s.fsTime ∨ ∃ ch gnd fs, i = .map ch gnd fs ∨ i = .throttle ch gnd fs := by
  cases h <;> simp -implicitDefEqProofs [State.throttleNan, injectBeep_eq]

theorem ExecNext.beepTime {s t : State} {i : Instr} (h : ExecNext s i t) :
    t.beepTime = s.beepTime ∨ ∃ fs, i = .beepTick fs := by
  cases h <;> simp -implicitDefEqProofs [State.throttleNan, injectBeep_eq]

/-- The carriers of a TRANSMIT alone drive the lines and emit (R20). -/
theorem ExecNext.lines {s t : State} {i : Instr} (h : ExecNext s i t) :
    (t.pin = s.pin ∧ t.trace = s.trace) ∨
      i = .transmit ∨ (∃ gnd fs, i = .throttle 3 gnd fs) ∨ ∃ fs, i = .beepTick fs := by
  cases h with
  | throttle ch gnd fs hn =>
    by_cases h3 : ch = 3
    · simp -implicitDefEqProofs [h3]
    · simp -implicitDefEqProofs [transmitIfLast_of_ne h3]
  | _ => simp -implicitDefEqProofs [State.throttleNan]

theorem ExecNext.timeline {s t : State} {i : Instr} (h : ExecNext s i t) :
    (t.tl = s.tl ∧ t.encMask = s.encMask) ∨ i = .transmit ∨ (∃ ch v tlm, i = .encode ch v tlm) ∨
      (∃ ch gnd fs, i = .throttle ch gnd fs) ∨ ∃ fs, i = .beepTick fs := by
  cases h <;> simp -implicitDefEqProofs [State.throttleNan]

theorem ExecNext.faults {s t : State} {i : Instr} (h : ExecNext s i t) :
    t.faults = s.faults ∨ isNaN s.thr = true ∧ ∃ ch gnd fs, i = .map ch gnd fs ∨ i = .throttle ch gnd fs := by
  cases h with
  | mapNan ch gnd fs hn => exact .inr ⟨hn, ch, gnd, fs, .inl rfl⟩
  | throttleNan ch gnd fs hn => exact .inr ⟨hn, ch, gnd, fs, .inr rfl⟩
  | _ => simp -implicitDefEqProofs [injectBeep_eq]

/-- Settles O53: one lemma per piece of state, each over the ways `exec` can end. -/
theorem whoWritesWhat : Obligations.WhoWritesWhat := by
  intro i s t hexec
  have h := exec_eq_next_iff.1 hexec
  exact ⟨h.keeps, h.dir.resolve_left, h.fsTime.resolve_left, h.beepTime.resolve_left,
    fun hne => h.lines.resolve_left (by tauto), fun hne => h.timeline.resolve_left (by tauto), h.faults.resolve_left⟩

theorem ExecNext.faults_subset {s t : State} {i : Instr} (h : ExecNext s i t) {f : ModelFault} (hf : f ∈ s.faults) :
    f ∈ t.faults := by
  have hnan : f ∈ s.throttleNan.faults := (State.mem_faults_raiseFault s f _).2 (.inl hf)
  cases h with
  | mapNan ch gnd fs hn => exact hnan
  | throttleNan ch gnd fs hn => exact hnan
  | _ => simpa -implicitDefEqProofs [injectBeep_eq] using hf

/-- The hazards after a beep's four encodes: those of the channels that were encoded before them (43_beep.md R108). -/
theorem mem_haz_encodeAll (code : Value) (s : State) (h : Hazard) :
    h ∈ (encodeAll code s).haz ↔
      h ∈ s.haz ∨ ∃ ch : Channel, s.encMask.getLsbD ch.val = true ∧ h = .doubleEncode ch := by
  rw [encodeAll_eq]
  simp only [mem_haz_encodeBody, encMask_encodeBody]
  simp [Fin.exists_fin_succ, or_assoc]

theorem mem_haz_injectBeep (code : Value) (s : State) (h : Hazard) :
    h ∈ (injectBeep code s).haz ↔
      h ∈ s.haz ∨ ∃ ch : Channel, s.encMask.getLsbD ch.val = true ∧ h = .doubleEncode ch := by
  rw [injectBeep_haz, mem_haz_encodeAll]

theorem ExecNext.haz_subset {s t : State} {i : Instr} (ht : ExecNext s i t) {h : Hazard} (hh : h ∈ s.haz) :
    h ∈ t.haz := by
  cases ht with
  | encode ch v tlm =>
    rw [State.setResp_haz]
    exact (mem_haz_encodeBody ch v tlm s h).2 (.inl hh)
  | throttle ch gnd fs hn =>
    rw [State.setResp_haz, transmitIfLast_haz]
    exact (mem_haz_encodeBody ch _ false _ h).2 (.inl hh)
  | beepSent fs code hit =>
    rw [State.setResp_haz]
    exact (mem_haz_injectBeep code _ h).2 (.inl hh)
  | _ => simpa -implicitDefEqProofs [State.throttleNan] using hh

/-- Settles O54: a legal command keeps both sets' records, an illegal word adds one fault. -/
theorem recordsAreSticky : Obligations.RecordsAreSticky := by
  intro s t c rest hhost hstep
  obtain ⟨hcfg, -⟩ := step_cases hstep
  rw [step_of_host hcfg hhost] at hstep
  obtain ⟨i, -, hi⟩ | ⟨-, rfl⟩ := runCommand_cases hstep
  · have hnext := exec_eq_next_iff.1 hi
    exact ⟨fun f hf => hnext.faults_subset hf, fun h hh => hnext.haz_subset hh⟩
  · exact ⟨fun f hf => (State.mem_faults_raiseFault _ f _).2 (.inl hf), fun h hh => hh⟩

end Sys2Proof.Machine
end

section
/-! What a command does not read: buses, `RESP`, `DIR` (10_state.md R20, R24; 30_encoding.md R54, R55, R56). -/
namespace Sys2Proof.Machine

theorem State.setResp_setResp (s : State) (r r' : BitVec 16) : (s.setResp r).setResp r' = s.setResp r' := rfl

theorem transmitIfLast_present (ch : Channel) (s : State) (c : Command) :
    transmitIfLast ch (s.present c) = (transmitIfLast ch s).present c := by
  unfold transmitIfLast
  split
  · exact transmitBody_present s c
  · rfl

theorem transmitIfLast_setResp (ch : Channel) (s : State) (r : BitVec 16) :
    transmitIfLast ch (s.setResp r) = (transmitIfLast ch s).setResp r := by
  unfold transmitIfLast
  split
  · exact transmitBody_setResp s r
  · rfl

theorem transmitIfLast_setDir (ch : Channel) (s : State) (d : Direction) :
    transmitIfLast ch (s.setDir d) = (transmitIfLast ch s).setDir d := by
  unfold transmitIfLast
  split
  · exact transmitBody_setDir s d
  · rfl

/-- A command runs alike whatever stands on the signals it does not read. -/
theorem ExecNext.present {s t : State} {i : Instr} (h : ExecNext s i t) {c : Command}
    (hthr : readsThr i = true → c.thr = s.thr) (hnow : readsNow i = true → c.now = s.now) :
    ExecNext (s.present c) i (t.present c) := by
  obtain ⟨cmd, thr, now⟩ := c
  cases h with
  | encode ch v tlm =>
    have h := ExecNext.encode (s := s.present ⟨cmd, thr, now⟩) ch v tlm
    rwa [encodeBody_present] at h
  | transmit =>
    have h := ExecNext.transmit (s := s.present ⟨cmd, thr, now⟩)
    rwa [transmitBody_present] at h
  | map ch gnd fs hn =>
    obtain rfl : thr = s.thr := hthr rfl
    obtain rfl : now = s.now := hnow rfl
    exact .map ch gnd fs hn
  | mapNan ch gnd fs hn =>
    obtain rfl : thr = s.thr := hthr rfl
    exact .mapNan ch gnd fs hn
  | throttle ch gnd fs hn =>
    obtain rfl : thr = s.thr := hthr rfl
    obtain rfl : now = s.now := hnow rfl
    have h := ExecNext.throttle (s := s.present ⟨cmd, s.thr, s.now⟩) ch gnd fs hn
    have hcomm (t : Word) :
        (s.present ⟨cmd, s.thr, s.now⟩).setFsTime t = (s.setFsTime t).present ⟨cmd, s.thr, s.now⟩ := rfl
    rwa [hcomm, encodeBody_present, transmitIfLast_present] at h
  | throttleNan ch gnd fs hn =>
    obtain rfl : thr = s.thr := hthr rfl
    exact .throttleNan ch gnd fs hn
  | beepSent fs code hit =>
    obtain rfl : now = s.now := hnow rfl
    have h := ExecNext.beepSent (s := s.present ⟨cmd, thr, s.now⟩) fs code hit
    have hcomm (t : Word) :
        (s.present ⟨cmd, thr, s.now⟩).setBeepTime t = (s.setBeepTime t).present ⟨cmd, thr, s.now⟩ := rfl
    rwa [hcomm, injectBeep_present] at h
  | beepSilent fs hit =>
    obtain rfl : now = s.now := hnow rfl
    exact .beepSilent fs hit
  | setDir d => exact .setDir d

/-- A command runs alike whatever `RESP` held: only a NaN throttle leaves it as it was (42_throttle_failsafe.md
R88). -/
theorem ExecNext.setResp {s t : State} {i : Instr} (h : ExecNext s i t) (r : BitVec 16) :
    ExecNext (s.setResp r) i (if raisesThrottleNan s i then t.setResp r else t) := by
  cases h with
  | encode ch v tlm =>
    have h := ExecNext.encode (s := s.setResp r) ch v tlm
    rwa [encodeBody_setResp, State.setResp_setResp] at h
  | transmit =>
    have h := ExecNext.transmit (s := s.setResp r)
    rwa [transmitBody_setResp, State.setResp_setResp] at h
  | map ch gnd fs hn =>
    rw [if_neg (by simp [raisesThrottleNan, hn])]
    exact .map ch gnd fs hn
  | mapNan ch gnd fs hn =>
    rw [if_pos (by simp [raisesThrottleNan, readsThr, hn])]
    exact .mapNan ch gnd fs hn
  | throttle ch gnd fs hn =>
    have h := ExecNext.throttle (s := s.setResp r) ch gnd fs hn
    have hcomm (t : Word) : (s.setResp r).setFsTime t = (s.setFsTime t).setResp r := rfl
    rw [hcomm, encodeBody_setResp, transmitIfLast_setResp, State.setResp_setResp] at h
    rwa [if_neg (by simp [raisesThrottleNan, hn])]
  | throttleNan ch gnd fs hn =>
    rw [if_pos (by simp [raisesThrottleNan, readsThr, hn])]
    exact .throttleNan ch gnd fs hn
  | beepSent fs code hit =>
    have h := ExecNext.beepSent (s := s.setResp r) fs code hit
    have hcomm (t : Word) : (s.setResp r).setBeepTime t = (s.setBeepTime t).setResp r := rfl
    rwa [hcomm, injectBeep_setResp, State.setResp_setResp] at h
  | beepSilent fs hit => exact .beepSilent fs hit
  | setDir d => exact .setDir d

/-- Settles O55: a bus that is not read and `RESP` pass through every way a command can end. -/
theorem unreadBusesIgnored : Obligations.UnreadBusesIgnored := by
  intro i s
  obtain ⟨t, ht⟩ := exists_execNext i s
  obtain ⟨-, -, hcmd, hthr, hnow, -⟩ := ht.keeps
  refine ⟨t, ht.exec_eq, fun hread w => ?thr, fun hread w => ?now, fun r => ?resp⟩
  case thr =>
    have ht' : { t with thr := w } = t.present ⟨s.cmd, w, s.now⟩ := by rw [← hcmd, ← hnow]; rfl
    rw [ht']
    exact (ht.present (c := ⟨s.cmd, w, s.now⟩) (by simp [hread]) fun _ => rfl).exec_eq
  case now =>
    have ht' : { t with now := w } = t.present ⟨s.cmd, s.thr, w⟩ := by rw [← hcmd, ← hthr]; rfl
    rw [ht']
    exact (ht.present (c := ⟨s.cmd, s.thr, w⟩) (fun _ => rfl) (by simp [hread])).exec_eq
  case resp => exact (ht.setResp r).exec_eq

/-- The throttle's value does not depend on `DIR` when `BIDIR` is off (R24). -/
theorem mapValue_setDir {s : State} (h : s.cfg.bidir = false) (d : Direction) (gnd fs : Bool) :
    (s.setDir d).mapValue gnd fs = s.mapValue gnd fs := by
  have hbase : (s.setDir d).baseMap = s.baseMap := mapFn_of_unidirectional h d s.dir (clampThr s.thr)
  rw [State.mapValue, hbase, State.mapValue]
  rfl

/-- A command that does not read `DIR` runs alike whatever it holds, and SET_DIR overwrites it. -/
theorem ExecNext.setDir_comm {s t : State} {i : Instr} (h : ExecNext s i t)
    (hdir : s.cfg.bidir = false ∨ readsDir i = false) (d : Direction) (hi : ∀ e, i ≠ .setDir e) :
    ExecNext (s.setDir d) i (t.setDir d) := by
  cases h with
  | encode ch v tlm =>
    have h := ExecNext.encode (s := s.setDir d) ch v tlm
    rwa [encodeBody_setDir] at h
  | transmit =>
    have h := ExecNext.transmit (s := s.setDir d)
    rwa [transmitBody_setDir] at h
  | map ch gnd fs hn =>
    have h := ExecNext.map (s := s.setDir d) ch gnd fs hn
    rwa [mapValue_setDir (hdir.resolve_right nofun)] at h
  | mapNan ch gnd fs hn => exact .mapNan ch gnd fs hn
  | throttle ch gnd fs hn =>
    have h := ExecNext.throttle (s := s.setDir d) ch gnd fs hn
    have hcomm (t : Word) : (s.setDir d).setFsTime t = (s.setFsTime t).setDir d := rfl
    rwa [mapValue_setDir (hdir.resolve_right nofun), hcomm, encodeBody_setDir, transmitIfLast_setDir] at h
  | throttleNan ch gnd fs hn => exact .throttleNan ch gnd fs hn
  | beepSent fs code hit =>
    have h := ExecNext.beepSent (s := s.setDir d) fs code hit
    have hcomm (t : Word) : (s.setDir d).setBeepTime t = (s.setBeepTime t).setDir d := rfl
    rwa [hcomm, injectBeep_setDir] at h
  | beepSilent fs hit => exact .beepSilent fs hit
  | setDir e => exact absurd rfl (hi e)

/-- Settles O36: every command but SET_DIR carries the direction through, and SET_DIR writes its own. -/
theorem dirReadOnlyWhenBidirectional : Obligations.DirReadOnlyWhenBidirectional := by
  intro i s hdir
  obtain ⟨t, ht⟩ := exists_execNext i s
  refine ⟨t, ht.exec_eq, fun d => ⟨fun hi => (ht.setDir_comm hdir d hi).exec_eq, ?_⟩⟩
  rintro ⟨e, rfl⟩
  cases ht
  rfl

end Sys2Proof.Machine
end

section
/-! Hazards under the host's encode duties and against them (70_reset_and_hazards.md R135, R137; 40_frame_encoder.md
R71). -/
namespace Sys2Proof.Machine

theorem encodeBody_haz_of_not_encoded {s : State} {ch : Channel} (h : s.encMask.getLsbD ch.val = false) (v : Value)
    (tlm : Bool) : (encodeBody ch v tlm s).haz = s.haz := by
  rw [encodeBody_eq]
  simp only [h]
  rfl

/-- Four encodes from an empty `ENC_MASK` encode no channel twice. -/
theorem injectBeep_haz_of_encMask_eq_zero {s : State} (h : s.encMask = 0) (code : Value) :
    (injectBeep code s).haz = s.haz := by
  have hbit := State.not_encoded_of_encMask_eq_zero h
  rw [injectBeep_haz, encodeAll_eq, encodeBody_haz_of_not_encoded, encodeBody_haz_of_not_encoded,
    encodeBody_haz_of_not_encoded, encodeBody_haz_of_not_encoded (hbit 0)]
  all_goals simp only [encMask_encodeBody, hbit]; rfl

theorem ExecNext.haz_of_duty {s t : State} {i : Instr} (h : ExecNext s i t) (hduty : encodeDuty s i = true) :
    t.haz = s.haz := by
  cases h with
  | encode ch v tlm =>
    rw [State.setResp_haz]
    exact encodeBody_haz_of_not_encoded (by simpa [encodeDuty] using hduty) v tlm
  | throttle ch gnd fs hn =>
    rw [State.setResp_haz, transmitIfLast_haz]
    exact encodeBody_haz_of_not_encoded (by simpa [encodeDuty] using hduty) _ false
  | beepSent fs code hit =>
    rw [State.setResp_haz]
    exact injectBeep_haz_of_encMask_eq_zero (by simpa [encodeDuty] using hduty) code
  | _ => simp -implicitDefEqProofs [State.throttleNan]

/-- Settles O56: under the duties each command's encodes are first encodes; against them, the encoded channels' bits
decide. -/
theorem dutyCausesNoHazard : Obligations.DutyCausesNoHazard := by
  intro i s t hexec
  have hnext := exec_eq_next_iff.1 hexec
  refine ⟨hnext.haz_of_duty, ?encode, ?throttle, ?sent, ?silent, ?nan⟩
  case encode =>
    rintro ch v tlm rfl hduty h
    cases hnext
    have hbit : s.encMask.getLsbD ch.val = true := by simpa [encodeDuty] using hduty
    rw [State.setResp_haz, mem_haz_encodeBody]
    simp only [hbit, true_and]
  case throttle =>
    rintro ch gnd fs rfl hnumber hduty h
    have hbit : s.encMask.getLsbD ch.val = true := by simpa [encodeDuty] using hduty
    cases hnext with
    | throttleNan _ _ _ hn => exact absurd hnumber (by simp [hn])
    | throttle _ _ _ hn =>
      rw [State.setResp_haz, transmitIfLast_haz, mem_haz_encodeBody, State.setFsTime_encMask]
      simp only [hbit, true_and, State.setFsTime_haz]
  case sent =>
    rintro fs code rfl hcode h
    cases hnext with
    | beepSilent _ hit => exact absurd hcode (by simp [hit])
    | beepSent _ code' hit =>
      rw [State.setResp_haz, mem_haz_injectBeep]
      rfl
  case silent =>
    rintro fs rfl hsilent
    cases hnext with
    | beepSilent _ hit => rfl
    | beepSent _ code' hit => exact absurd hsilent (by simp [hit])
  case nan =>
    rintro ch gnd fs rfl hnan
    cases hnext with
    | throttleNan _ _ _ hn => rfl
    | throttle _ _ _ hn => exact absurd hnan (by simp [hn])

end Sys2Proof.Machine
end

section
/-! Frames: the check nibble, the value and the flag (40_frame_encoder.md R66, R67). -/
namespace Sys2Proof.Machine

/-- Above its check nibble a frame is the 12-bit field (R66). -/
theorem frame_extractLsb'_field (value : Value) (tlm : Bool) (start len : Nat) :
    (frame value tlm).extractLsb' (4 + start) len = (frameField value tlm).extractLsb' start len := by
  rw [frame, BitVec.extractLsb'_append_eq_of_le (Nat.le_add_right 4 start), Nat.add_sub_cancel_left]

theorem frame_extractLsb'_check (value : Value) (tlm : Bool) :
    (frame value tlm).extractLsb' 0 4 = nibbleXor (frameField value tlm) :=
  BitVec.extractLsb'_append_eq_right

theorem frameValid_iff (w : BitVec 16) : frameValid w = true ↔
    w.extractLsb' 0 4 = w.extractLsb' 4 4 ^^^ w.extractLsb' 8 4 ^^^ w.extractLsb' 12 4 := beq_iff_eq

theorem frameValid_frame (value : Value) (tlm : Bool) : frameValid (frame value tlm) = true := by
  rw [frameValid_iff, frame_extractLsb'_check]
  exact (congrArg₂ _ (congrArg₂ _ (frame_extractLsb'_field value tlm 0 4) (frame_extractLsb'_field value tlm 4 4))
    (frame_extractLsb'_field value tlm 8 4)).symm

theorem frameValue_frame (value : Value) (tlm : Bool) : frameValue (frame value tlm) = value :=
  (frame_extractLsb'_field value tlm 1 11).trans (frameField_extractLsb' value tlm)

theorem frameTlm_frame (value : Value) (tlm : Bool) : frameTlm (frame value tlm) = tlm := by
  rw [frameTlm, frame, BitVec.getLsbD_append, if_neg (Nat.lt_irrefl 4)]
  exact frameField_getLsbD_zero value tlm

/-- Settles O21: the definitions of the three readings, and each reading of a built frame. -/
theorem frameRoundTrip : Obligations.FrameRoundTrip :=
  ⟨frameValid_iff, fun _ => ⟨rfl, rfl⟩, fun value tlm =>
    ⟨frameValid_frame value tlm, frameValue_frame value tlm, frameTlm_frame value tlm⟩⟩

end Sys2Proof.Machine
end

section
/-! Lanes: rendering into an empty one, two frames on one, four channels in any order (40_frame_encoder.md R69, R72,
R73, R74). -/
namespace Sys2Proof.Machine

theorem lane_renderFrame_same (s : State) (ch : Channel) (w : BitVec 16) (i : Slot) :
    (renderFrame s ch w).lane ch i = (s.lane ch i || pulse w i) := by
  rw [lane_renderFrame, decide_eq_true rfl, Bool.true_and]

theorem State.lane_eq_false_of_tlRead {s : State} {i : Slot} (h : s.tlRead i = 0) (ch : Channel) :
    s.lane ch i = false := by
  rw [State.lane, h]
  exact BitVec.getLsbD_zero

/-- Settles O24: an empty lane becomes the frame's pulses, quarter by quarter; slot 63 is quarter 3 of bit 15. -/
theorem renderIntoEmpty : Obligations.RenderIntoEmpty := by
  intro s ch w hempty
  have hlane (i : Slot) : (renderFrame s ch w).lane ch i = pulse w i := by
    rw [lane_renderFrame_same, State.lane_eq_false_of_tlRead (hempty i), Bool.false_or]
  refine ⟨fun k => ?_, ?_⟩
  · simp [hlane, pulse_slotOf, frameBit]
  · exact (hlane 63).trans (pulse_slotOf w 15 3)

theorem setLane_true_comm (m : BitVec 4) (a b : Channel) :
    setLane (setLane m a true) b true = setLane (setLane m b true) a true := by
  simp only [setLane, if_true, BitVec.or_assoc]
  rw [BitVec.or_comm (1#4 <<< a.val)]

/-- A state that differs from another in the timeline, `ENC_MASK` and `HAZ` at most is that state when those agree. -/
theorem State.eq_of_encoder_fields {s t u : State} (ht : t = { s with tl := t.tl, encMask := t.encMask, haz := t.haz })
    (hu : u = { s with tl := u.tl, encMask := u.encMask, haz := u.haz }) (htl : t.tl = u.tl)
    (hmask : t.encMask = u.encMask) (hhaz : t.haz = u.haz) : t = u := by
  rw [ht, hu, htl, hmask, hhaz]

theorem encodeBody_frame (ch : Channel) (v : Value) (tlm : Bool) (s : State) :
    encodeBody ch v tlm s =
      { s with
        tl := (encodeBody ch v tlm s).tl
        encMask := (encodeBody ch v tlm s).encMask
        haz := (encodeBody ch v tlm s).haz } := by
  rw [encodeBody_eq]

theorem encodeBody_encodeBody_frame (a b : Channel) (v w : Value) (p q : Bool) (s : State) :
    encodeBody b w q (encodeBody a v p s) =
      { s with
        tl := (encodeBody b w q (encodeBody a v p s)).tl
        encMask := (encodeBody b w q (encodeBody a v p s)).encMask
        haz := (encodeBody b w q (encodeBody a v p s)).haz } := by
  rw [encodeBody_frame b, encodeBody_frame a]

/-- Encodes of two channels commute in every state that meets the invariant: the timeline is an OR, and the sets are
canonical (R72). -/
theorem encodeBody_comm {s : State} (hs : s.Inv) {a b : Channel} (hne : a ≠ b) (v w : Value) (p q : Bool) :
    encodeBody b w q (encodeBody a v p s) = encodeBody a v p (encodeBody b w q s) := by
  have hab := (hs.encodeBody a v p).encodeBody b w q
  have hba := (hs.encodeBody b w q).encodeBody a v p
  refine State.eq_of_encoder_fields (encodeBody_encodeBody_frame a b v w p q s)
    (encodeBody_encodeBody_frame b a w v q p s) ?tl ?mask ?haz
  case tl =>
    refine Memory.eq_of_read hab.wf hba.wf fun i => ?_
    change (encodeBody b w q (encodeBody a v p s)).tlRead i = (encodeBody a v p (encodeBody b w q s)).tlRead i
    simp only [encodeBody_tlRead, BitVec.or_assoc]
    rw [BitVec.or_comm (if pulse (frame v p) i = true then _ else _)]
  case mask =>
    rw [encodeBody_eq, encodeBody_eq, encodeBody_eq, encodeBody_eq]
    exact setLane_true_comm s.encMask a b
  case haz =>
    refine eq_of_pairwise_of_mem hab.haz_sorted hba.haz_sorted fun h => ?_
    simp only [mem_haz_encodeBody, encMask_encodeBody, hne, hne.symm, decide_false, Bool.or_false]
    tauto

/-- Encodes of each channel's own value and flag give the same state in any order (R72). -/
theorem foldl_encodeBody_perm (value : Channel → Value) (tlm : Channel → Bool) {l m : List Channel} (h : l.Perm m)
    {s : State} (hs : s.Inv) :
    l.foldl (fun s' ch => encodeBody ch (value ch) (tlm ch) s') s =
      m.foldl (fun s' ch => encodeBody ch (value ch) (tlm ch) s') s := by
  induction h generalizing s with
  | nil => rfl
  | cons a _ ih => exact ih (hs.encodeBody a _ _)
  | swap a b l =>
    rw [List.foldl_cons, List.foldl_cons, List.foldl_cons, List.foldl_cons]
    by_cases hab : a = b
    · rw [hab]
    · rw [encodeBody_comm hs hab]
  | trans _ _ ih₁ ih₂ => exact (ih₁ hs).trans (ih₂ hs)

/-- Settles O25: encodes commute under the invariant, and a lane after an encode is a function of that lane. -/
theorem lanesIndependent : Obligations.LanesIndependent := by
  refine ⟨fun s value tlm l hs hl => foldl_encodeBody_perm value tlm hl hs, fun s ch other v tlm i hne => ?_,
    fun s u ch v tlm hagree i => ?_⟩
  · exact lane_encodeBody_of_ne hne v tlm s i
  · rw [lane_encodeBody_same, lane_encodeBody_same, hagree i]

/-- The pulses of an OR of frames are the pulses of either. -/
theorem pulse_or (v w : BitVec 16) (i : Slot) : pulse (v ||| w) i = (pulse v i || pulse w i) := by
  obtain ⟨k, j, rfl⟩ := exists_slotOf i
  simp only [pulse_slotOf, frameBit, BitVec.getLsbD_or]
  split
  · rfl
  · split <;> rfl

/-- Settles O26: the two renderings and the rendering of the OR write the timeline only, and read alike at every slot
of a canonical timeline. -/
theorem doubleEncodeIsOr : Obligations.DoubleEncodeIsOr := by
  intro s ch v w hs
  have hread (i : Slot) : (renderFrame (renderFrame s ch v) ch w).tlRead i = (renderFrame s ch (v ||| w)).tlRead i := by
    simp only [renderFrame_tlRead, pulse_or, BitVec.or_assoc]
    cases pulse v i <;> cases pulse w i <;> simp
  have htl := Memory.eq_of_read (wf_renderFrame (wf_renderFrame hs.wf ch v) ch w)
    (wf_renderFrame hs.wf ch (v ||| w)) hread
  rw [renderFrame_frame (renderFrame s ch v), htl, renderFrame_frame s ch v, ← renderFrame_frame s ch (v ||| w)]

/-- A lane that was empty before an encode holds the frame's pulses. -/
theorem lane_encodeBody_of_empty {s : State} {ch : Channel} (h : ∀ i, s.lane ch i = false) (value : Value) (tlm : Bool)
    (i : Slot) : (encodeBody ch value tlm s).lane ch i = pulse (frame value tlm) i := by
  rw [lane_encodeBody_same, h i, Bool.false_or]

theorem recoverFrame_pulse (w : BitVec 16) : recoverFrame (pulse w) = w := by
  refine eq_of_frameBit fun k => ?_
  rw [frameBit_recoverFrame, pulse_slotOf]
  rfl

theorem receivedFrame_eq (s : State) (ch : Channel) : receivedFrame s ch = recoverFrame (s.lane ch) := rfl

theorem receivedFrame_encodeBody {s : State} {ch : Channel} (h : ∀ i, s.lane ch i = false) (value : Value)
    (tlm : Bool) : receivedFrame (encodeBody ch value tlm s) ch = frame value tlm := by
  rw [receivedFrame_eq, funext (lane_encodeBody_of_empty h value tlm), recoverFrame_pulse]

/-- Settles O27: a lane not encoded is empty, so one encode leaves the frame's pulses there. -/
theorem receiverRecoversFrame : Obligations.ReceiverRecoversFrame := by
  intro s hs
  refine ⟨fun ch value tlm hmask => receivedFrame_encodeBody (hs.lane_eq_false hmask) value tlm, fun ch k hmask => ?_,
    fun ch i hmask => hs.lane_eq_false hmask i⟩
  obtain ⟨-, -, hshape, -⟩ := hs
  obtain ⟨h0, -, -, h3⟩ := hshape ch k
  exact ⟨h0.trans hmask, h3⟩

end Sys2Proof.Machine
end

section
/-! TRANSMIT, whole, and what it sends (41_transmitter.md R75, R76, R77, R78, R79). -/
namespace Sys2Proof.Machine

theorem exec_transmit (s : State) : exec .transmit s = .next ((transmitBody s).setResp 0) := rfl

theorem transmitBody_pin (s : State) : (transmitBody s).pin = (s.tlRead 63).setWidth 4 := by rw [transmitBody_eq]

/-- Each line ends at its bit of slot 63 (R49). -/
theorem transmitBody_line (s : State) (ch : Channel) : (transmitBody s).line ch = s.lane ch 63 := by
  rw [State.line, transmitBody_pin, BitVec.getLsbD_setWidth, decide_eq_true ch.isLt, Bool.true_and, State.lane]

/-- TRANSMIT writes the timeline, the lines, the trace, `ENC_MASK` and `RESP` only (R75). -/
theorem transmitBody_setResp_frame (s : State) (r : BitVec 16) :
    (transmitBody s).setResp r =
      { s with
        tl := (transmitBody s).tl
        pin := (transmitBody s).pin
        trace := (transmitBody s).trace
        encMask := 0
        resp := r } := by
  rw [transmitBody_eq]
  rfl

/-- Settles O28: TRANSMIT ends in the shared body with `RESP` 0, and each clause is a fact about the body. -/
theorem transmitResult : Obligations.TransmitResult := by
  intro s
  refine ⟨(transmitBody s).setResp 0, exec_transmit s, ?frame, fun i => ?tl, fun ch => ?lines, ?trace⟩
  case frame =>
    rw [State.setResp_tl, State.setResp_pin, State.setResp_trace]
    exact transmitBody_setResp_frame s 0
  case tl => rw [State.setResp_tlRead, transmitBody_tlRead]
  case lines =>
    rw [State.line, State.setResp_pin]
    exact transmitBody_line s ch
  case trace =>
    rw [State.setResp_trace, transmitBody_trace, ← List.append_assoc]
    rfl

theorem State.Inv.transmitBody_pin {s : State} (hs : s.Inv) : (Machine.transmitBody s).pin = 0 :=
  hs.transmitBody.pin_eq_zero

/-- Settles O29: the body clears every slot and `ENC_MASK`, and keeps the invariant, under which every line is low. -/
theorem afterTransmit : Obligations.AfterTransmit := by
  intro s hs
  have hpin : ((transmitBody s).setResp 0).pin = 0 := by rw [State.setResp_pin, hs.transmitBody_pin]
  refine ⟨(transmitBody s).setResp 0, exec_transmit s, fun i => ?tl, ?mask, hpin, fun ch => ?line⟩
  case tl => rw [State.setResp_tlRead, transmitBody_tlRead]
  case mask => rw [State.setResp_encMask, transmitBody_encMask]
  case line =>
    rw [State.line, hpin]
    exact BitVec.getLsbD_zero

/-- With an empty timeline no channel is encoded (R29 b, R74). -/
theorem State.Inv.encMask_eq_zero {s : State} (hs : s.Inv) (hzero : ∀ i, s.tlRead i = 0) : s.encMask = 0 := by
  obtain ⟨-, -, hshape, -⟩ := hs
  refine mask_eq_zero fun ch => ?_
  obtain ⟨h0, -⟩ := hshape ch 0
  exact h0.symm.trans (State.lane_eq_false_of_tlRead (hzero _) ch)

theorem mem_transmitEvents {s : State} {e : TraceRec} :
    e ∈ transmitEvents s ↔ ∃ i ch, e = .pinWrite i ch (s.lane ch i) := by
  simp only [transmitEvents, slotEvents, allSlots, allChannels, List.mem_flatMap, List.mem_map, List.mem_finRange,
    true_and, State.lane, eq_comm]

/-- Settles O30: sending nothing leaves the empty timeline, the low lines and the empty mask of an invariant state, and
every event carries an empty lane's level. -/
theorem transmitEmptyTimeline : Obligations.TransmitEmptyTimeline := by
  intro s hs hzero
  have hmask := hs.encMask_eq_zero hzero
  refine ⟨(transmitBody s).setResp 0, transmitEvents s, exec_transmit s, ?frame, transmitEvents_length s,
    fun e he => ?_⟩
  case frame =>
    rw [transmitBody_setResp_frame, transmitBody_tl hs.wf, hs.transmitBody_pin, transmitBody_trace]
    simp [hs.tl_eq_nil hzero, hs.pin_eq_zero, hmask]
  · obtain ⟨i, ch, rfl⟩ := mem_transmitEvents.1 he
    exact ⟨i, ch, by rw [State.lane_eq_false_of_tlRead (hzero i)]⟩

theorem levelIn_transmitEvents_lane (s : State) (i : Slot) (ch : Channel) :
    levelIn (transmitEvents s) i ch = s.lane ch i := levelIn_transmitEvents s i ch

/-- Settles O31: the lane of the encoded channel holds the frame's pulses, the others are as they were, and each line
carries its lane. -/
theorem encodeThenTransmit : Obligations.EncodeThenTransmit := by
  intro s ch value tlm hs hmask
  have hempty := hs.lane_eq_false hmask
  have hsent : sentFrame (transmitEvents (encodeBody ch value tlm s)) ch = frame value tlm := by
    rw [sentFrame_transmitEvents, receivedFrame_encodeBody hempty]
  refine ⟨(encodeBody ch value tlm s).setResp 0, _, transmitEvents (encodeBody ch value tlm s),
    exec_encode ch value tlm s, exec_transmit _, ?trace, ?haz, fun k => ?levels, hsent, ?valid, ?carried, ?flag, ?others⟩
  case trace =>
    rw [State.setResp_trace, transmitBody_setResp, State.setResp_trace, transmitBody_trace, encodeBody_trace,
      ← List.append_assoc, State.setResp_encMask]
  case haz =>
    rw [State.setResp_haz, transmitBody_setResp, State.setResp_haz]
    rw [transmitBody_haz, encodeBody_haz_of_not_encoded hmask]
  case levels =>
    simp [levelIn_transmitEvents_lane, lane_encodeBody_of_empty hempty, pulse_slotOf, frameBit]
  case valid => rw [hsent, frameValid_frame]
  case carried => rw [hsent, frameValue_frame]
  case flag => rw [hsent, frameTlm_frame]
  case others =>
    intro other hne
    rw [sentFrame_transmitEvents]
    exact receivedFrame_of_lane fun i => lane_encodeBody_of_ne hne value tlm s i

end Sys2Proof.Machine
end

section
/-! MAP and THROTTLE: the response, the latch and the value (42_throttle_failsafe.md R95, R96, R97). A state with another
response is written as `State.setResp`, which moves past the shared bodies. -/
namespace Sys2Proof.Machine

/-- The value of a MAP or THROTTLE, with the latch's decision and the base mapping written out (R95). -/
theorem mapValue_eq (s : State) (gnd fs : Bool) :
    s.mapValue gnd fs =
      if gnd = true ∨ (failsafeLatch fs s.now s.fsTime).cut = true then 0
      else BitVec.ofNat 11 (mapFn s.cfg s.dir (clampThr s.thr)) := by
  simp only [State.mapValue, State.latch, State.baseMap, Bool.or_eq_true]

theorem mapValue_ground (s : State) (fs : Bool) : s.mapValue true fs = 0 := by
  rw [mapValue_eq, if_pos (.inl rfl)]

theorem mapValue_of_cut {s : State} {fs : Bool} (h : (failsafeLatch fs s.now s.fsTime).cut = true) (gnd : Bool) :
    s.mapValue gnd fs = 0 := by
  rw [mapValue_eq, if_pos (.inr h)]

theorem mapValue_of_not_cut {s : State} {fs : Bool} (h : (failsafeLatch fs s.now s.fsTime).cut = false) :
    s.mapValue false fs = BitVec.ofNat 11 (mapFn s.cfg s.dir (clampThr s.thr)) := by
  rw [mapValue_eq, if_neg (by simp [h])]

/-- Settles O37: MAP's arm, the fields of its response, and the value written out. -/
theorem mapResult : Obligations.MapResult := by
  intro ch gnd fs s hn
  obtain ⟨hvalue, hzero, hst, htop⟩ := mapResponse_fields (s.latch fs).st (s.mapValue gnd fs)
  exact ⟨_, exec_map_of_number ch gnd fs s hn, rfl, rfl, hvalue.trans (mapValue_eq s gnd fs), hzero, hst, htop⟩

/-- What MAP and THROTTLE share: the latch's onset and the value in `RESP` (R95, R97). -/
theorem exec_map_or_throttle {s : State} (hn : isNaN s.thr = false) {ch : Channel} {gnd fs : Bool} {i : Instr}
    (hi : i = .map ch gnd fs ∨ i = .throttle ch gnd fs) :
    ∃ t, exec i s = .next t ∧ t.fsTime = (failsafeLatch fs s.now s.fsTime).fsTime ∧
      t.resp.extractLsb' 0 11 = s.mapValue gnd fs := by
  obtain ⟨hvalue, -⟩ := mapResponse_fields (s.latch fs).st (s.mapValue gnd fs)
  obtain rfl | rfl := hi
  · exact ⟨_, exec_map_of_number ch gnd fs s hn, rfl, hvalue⟩
  · refine ⟨_, exec_throttle_of_number ch gnd fs s hn, ?_, hvalue⟩
    simp -implicitDefEqProofs [State.latch]

/-- Settles O40: the NaN arms of both commands record one fault. -/
theorem nanRecordsFault : Obligations.NanRecordsFault := by
  intro ch gnd fs s i hn hi
  have hexec : exec i s = .next s.throttleNan := by
    obtain ⟨hmap, hthrottle⟩ := exec_map_of_nan ch gnd fs s hn
    obtain rfl | rfl := hi
    · exact hmap
    · exact hthrottle
  exact ⟨s.throttleNan, hexec, rfl, fun f => State.mem_faults_raiseFault s f _⟩

/-- Settles O42: on the ground the value is 0 before the latch's decision is read. -/
theorem groundGivesZero : Obligations.GroundGivesZero := by
  intro ch fs s i hn hi
  obtain ⟨t, hexec, -, hvalue⟩ := exec_map_or_throttle hn hi
  exact ⟨t, hexec, hvalue.trans (mapValue_ground s fs)⟩

/-- Settles O43: without failsafe the latch is cleared and never cuts off, and a cleared latch takes the next onset. -/
theorem clearRestoresMapping : Obligations.ClearRestoresMapping := by
  intro ch s i hn hi
  obtain ⟨t, hexec, hfs, hvalue⟩ := exec_map_or_throttle hn hi
  rw [failsafeLatch_clear] at hfs
  refine ⟨t, hexec, hfs, hvalue.trans (mapValue_of_not_cut rfl), fun ch' now thr hnow hthr => ?_⟩
  refine ⟨_, exec_map_of_number ch' false true _ hthr, ?_⟩
  change (failsafeLatch true now t.fsTime).fsTime = now
  rw [hfs]
  exact congrArg Latch.fsTime (failsafeLatch_onset hnow)

/-- Settles O44: a timed latch keeps its onset, and cuts off exactly after 100000 µs. -/
theorem failsafeCutoff : Obligations.FailsafeCutoff := by
  intro ch s i hn hset hi
  obtain ⟨t, hexec, hfs, hvalue⟩ := exec_map_or_throttle hn hi
  refine ⟨t, hexec, ?_⟩
  rw [hfs, hvalue]
  split
  · next hgrace =>
    rw [mapValue_of_not_cut] <;> rw [failsafeLatch_grace hset hgrace]
    exact ⟨rfl, rfl⟩
  · next hcut =>
    rw [mapValue_of_cut] <;> rw [failsafeLatch_cutoff hset (Nat.not_le.1 hcut)]
    exact ⟨rfl, rfl⟩

/-- Settles O52: the failsafe has lasted at least as long as the beep episode, which has outlasted the cutoff time. -/
theorem cutoffWhileBeeping : Obligations.CutoffWhileBeeping := by
  intro s hfs _ htimeout hle hbeeping
  have hlatch := failsafeLatch_cutoff hfs (now := s.now) (by omega)
  refine ⟨congrArg Latch.st hlatch, fun ch gnd hn => ?_⟩
  obtain ⟨t, hexec, -, hvalue⟩ := exec_map_or_throttle hn (.inl (Eq.refl (Instr.map ch gnd true)))
  exact ⟨t, hexec, hvalue.trans (mapValue_of_cut (congrArg Latch.cut hlatch) gnd)⟩

/-- Settles O45: the three commands run the shared bodies one after the other, and none of the bodies reads `RESP`. -/
theorem throttleIsMapEncodeTransmit : Obligations.ThrottleIsMapEncodeTransmit := by
  intro ch gnd fs s hn
  obtain ⟨hvalue, -⟩ := mapResponse_fields (s.latch fs).st (s.mapValue gnd fs)
  have ht := ExecNext.throttle (s := s) ch gnd fs hn
  obtain ⟨hcfg, hpast, hcmd, hthr, hnow, hhost⟩ := ht.keeps
  refine ⟨_, _, _, exec_map_of_number ch gnd fs s hn, exec_encode ch _ false _, ht.exec_eq, fun hne => ?other,
    fun hlast => ⟨_, exec_transmit _, ?last⟩, hcfg, ht.dir.resolve_right nofun, ht.beepTime.resolve_right nofun,
    ht.faults.resolve_right (by simp [hn]), hpast, hcmd, hthr, hnow, hhost⟩
  case other =>
    rw [State.setResp_resp, hvalue, encodeBody_setResp, transmitIfLast_of_ne hne]
    rfl
  case last =>
    subst hlast
    change _ = State.setResp ((transmitBody _).setResp 0) _
    rw [State.setResp_resp, hvalue, encodeBody_setResp, transmitIfLast_three, State.setResp_setResp,
      transmitBody_setResp, State.setResp_setResp, transmitBody_setResp, State.setResp_setResp]

/-- Settles O46: channel 3's empty lane takes the frame of the value, the encode leaves the other lanes, and each line
carries its lane. -/
theorem throttleThreeSends : Obligations.ThrottleThreeSends := by
  intro gnd fs s hs hmask hn
  obtain ⟨hvalue, -⟩ := mapResponse_fields (s.latch fs).st (s.mapValue gnd fs)
  have hlatched : (s.setFsTime (s.latch fs).fsTime).Inv := hs.setFsTime _
  have hinv := hlatched.encodeBody 3 (s.mapValue gnd fs) false
  refine ⟨_, transmitEvents (encodeBody 3 (s.mapValue gnd fs) false (s.setFsTime (s.latch fs).fsTime)),
    exec_throttle_of_number 3 gnd fs s hn, ?trace, ?tl, ?mask, ?pin, ?line, fun other hne => ?others⟩
  case trace =>
    rw [State.setResp_trace, transmitIfLast_three, transmitBody_trace, encodeBody_trace, ← List.append_assoc, encodeBody_eq]
    rfl
  case tl => rw [State.setResp_tl, transmitIfLast_three, transmitBody_tl hinv.wf]
  case mask => rw [State.setResp_encMask, transmitIfLast_three, transmitBody_encMask]
  case pin => rw [State.setResp_pin, transmitIfLast_three, hinv.transmitBody_pin]
  case line =>
    rw [State.setResp_resp, hvalue, sentFrame_transmitEvents]
    exact receivedFrame_encodeBody (hlatched.lane_eq_false (ch := 3) hmask) _ false
  case others =>
    rw [sentFrame_transmitEvents]
    exact receivedFrame_of_lane fun i => lane_encodeBody_of_ne hne _ false _ i

end Sys2Proof.Machine
end

section
/-! BEEP_TICK: the window table, the ticks that send nothing, and the tick in a window (43_beep.md R102 to R105). -/
namespace Sys2Proof.Machine

/-- Settles O47: the table's comparisons, interval by interval. -/
theorem beepWindowTable : Obligations.BeepWindowTable := by
  intro c p _
  simp only [windowCode, beepWindowUs]
  refine ⟨fun h => ?_, fun h h' => ?_, fun h h' => ?_, fun h h' => ?_, fun h => ?_⟩
  · rw [if_pos h]
  · rw [if_neg (by omega), if_pos (by omega)]
  · rw [if_neg (by omega), if_neg (by omega), if_pos (by omega)]
  · rw [if_neg (by omega), if_neg (by omega), if_neg (by omega), if_pos (by omega)]
  · rw [if_neg (by omega), if_neg (by omega), if_neg (by omega), if_neg (by omega)]

/-- Settles O48: an inactive tick has no hit, its latch is 0 and its response is the word 0. -/
theorem beepTickInactive : Obligations.BeepTickInactive := by
  intro s
  have hstate : s.beepState false = .inactive := rfl
  rw [exec_beepTick_of_silent false s rfl, hstate]
  rfl

theorem beepElapsed_true (s : State) :
    s.beepElapsed true = (elapsed s.now (if s.beepTime = 0 then s.now else s.beepTime)).toNat := rfl

/-- A waiting tick sends nothing (R105). -/
theorem beepState_waiting {s : State} (h : s.beepElapsed true ≤ s.cfg.beepTimeoutUs) :
    s.beepState true = .waiting ∧ s.beepHit true = none := by
  have hstate : s.beepState true = .waiting := by simp [State.beepState, h]
  exact ⟨hstate, by simp only [State.beepHit, hstate]⟩

/-- Settles O49: a waiting tick has no hit, and the table has no code in the silent second. -/
theorem beepTickSilent : Obligations.BeepTickSilent := by
  rintro s T e rfl rfl
  refine ⟨fun hwaiting => ?_, fun hbeeping hsilent => ?_⟩
  · obtain ⟨hstate, hhit⟩ := beepState_waiting hwaiting
    rw [exec_beepTick_of_silent true s hhit, hstate]
    rfl
  · obtain ⟨hstate, hhit⟩ := beepHit_of_elapsed (beepElapsed_true s) hbeeping
    obtain ⟨-, -, -, -, htable⟩ :=
      beepWindowTable s.cfg _
        (Nat.mod_lt (elapsed s.now (if s.beepTime = 0 then s.now else s.beepTime)).toNat (by omega))
    rw [exec_beepTick_of_silent true s (hhit.trans (htable hsilent)), hstate]
    rfl

/-- A tick in a window, with its onset latched already: the beep is sent and the response says so (R104). -/
theorem exec_beepTick_of_window {s : State} {code : Value} (hset : s.beepTime ≠ 0)
    (hbeeping : s.cfg.beepTimeoutUs < (elapsed s.now s.beepTime).toNat)
    (hcode : windowCode s.cfg ((elapsed s.now s.beepTime).toNat % 2000000) = some code) :
    exec (.beepTick true) s = .next ((injectBeep code s).setResp (beepResponse true .beeping code)) := by
  have hlatch : beepLatch true s.now s.beepTime = s.beepTime := if_neg hset
  have helapsed : s.beepElapsed true = (elapsed s.now s.beepTime).toNat := by rw [State.beepElapsed, hlatch]
  obtain ⟨hstate, hhit⟩ := beepHit_of_elapsed helapsed hbeeping
  rw [exec_beepTick_of_hit true s (hhit.trans hcode), hlatch, hstate]
  rfl

/-- Settles O50: the beep's encodes and its send are the commands' own bodies, none of which reads `RESP`. -/
theorem beepTickInWindow : Obligations.BeepTickInWindow := by
  intro s code hbeeping hset hcode
  obtain ⟨hvalue, hzero, hstate, hsent⟩ := beepResponse_fields true .beeping code
  refine ⟨_, _, _, _, _, _, exec_encode 0 code true s, exec_encode 1 code true _, exec_encode 2 code true _,
    exec_encode 3 code true _, exec_transmit _, exec_beepTick_of_window hset hbeeping hcode, ?_, hvalue, hzero, hstate,
    hsent⟩
  change _ = State.setResp ((transmitBody _).setResp 0) _
  simp -implicitDefEqProofs only [encodeBody_setResp, transmitBody_setResp, State.setResp_setResp, injectBeep_eq,
    encodeAll_eq, State.setResp_resp]

theorem lane_encodeAll (code : Value) (s : State) (ch : Channel) (i : Slot) :
    (encodeAll code s).lane ch i = (s.lane ch i || pulse (frame code true) i) := by
  rw [encodeAll_eq]
  simp only [lane_encodeBody]
  fin_cases ch <;> simp

/-- Four encodes mark all four channels. -/
theorem encodeAll_encMask (code : Value) (s : State) : (encodeAll code s).encMask = 15 := by
  have hall : ∀ m : BitVec 4, setLane (setLane (setLane (setLane m 0 true) 1 true) 2 true) 3 true = 15 := by decide
  rw [encodeAll_eq, encodeBody_eq, encodeBody_eq, encodeBody_eq, encodeBody_eq]
  exact hall s.encMask

theorem State.Inv.encodeAll {s : State} (hs : s.Inv) (code : Value) : (encodeAll code s).Inv := by
  rw [encodeAll_eq]
  exact (((hs.encodeBody 0 code true).encodeBody 1 code true).encodeBody 2 code true).encodeBody 3 code true

/-- Settles O51: with no channel encoded every lane is empty, so the four encodes leave the beep frame's pulses in each,
and each line carries its lane. -/
theorem beepSendsOnAllLines : Obligations.BeepSendsOnAllLines := by
  intro s code hs hmask hset hbeeping hcode
  have hlane (ch : Channel) : (encodeAll code s).lane ch = pulse (frame code true) := by
    funext i
    have hempty := hs.lane_eq_false (State.not_encoded_of_encMask_eq_zero hmask ch) i
    rw [lane_encodeAll, hempty, Bool.false_or]
  have ht := exec_eq_next_iff.1 (exec_beepTick_of_window hset hbeeping hcode)
  refine ⟨_, transmitEvents (encodeAll code s), ht.exec_eq, ?trace, fun ch => ?line, ?haz, ?tl, ?mask, ?onset⟩
  case trace => rw [State.setResp_trace, injectBeep_trace, encodeAll_encMask, List.append_assoc]
  case line => rw [sentFrame_transmitEvents, receivedFrame_eq, hlane ch, recoverFrame_pulse]
  case haz => rw [State.setResp_haz, injectBeep_haz_of_encMask_eq_zero hmask]
  case tl => rw [State.setResp_tl, injectBeep_eq, transmitBody_tl (hs.encodeAll code).wf]
  case mask => rw [State.setResp_encMask, injectBeep_eq, transmitBody_encMask]
  case onset => simp -implicitDefEqProofs [injectBeep_eq]

end Sys2Proof.Machine
end

section
/-! The rounding of a quotient is to nearest, ties to even (00_scope.md R15). -/
namespace Sys2Proof.Machine

/-- The whole number nearest to `n / q`, the even one when two are as near: the rounding inside `roundRatio`. -/
def nearestQuotient (n q : Nat) : Nat :=
  if q < 2 * (n % q) ∨ (2 * (n % q) = q ∧ n / q % 2 = 1) then n / q + 1 else n / q

/-- The quantum that `roundRatio` rounds to, as a power of 2: 24 bits of the quotient are left. -/
def roundExponent (num den : Nat) : Nat := Nat.log2 (num / den) - 23

theorem roundRatio_eq (num den : Nat) :
    roundRatio num den =
      nearestQuotient num (den * 2 ^ roundExponent num den) * 2 ^ roundExponent num den := by
  rw [roundExponent]
  simp only [roundRatio, nearestQuotient]
  split <;> rfl

/-- A nearest quotient is at most half a divisor away, and a tie goes to an even one. -/
theorem nearestQuotient_spec {n q : Nat} (hq : 0 < q) :
    2 * |(n : Int) - nearestQuotient n q * q| ≤ q ∧
      (2 * |(n : Int) - nearestQuotient n q * q| = q → nearestQuotient n q % 2 = 0) := by
  have hmod := Nat.mod_lt n hq
  have hdiv : (n : Int) = q * (n / q : Nat) + (n % q : Nat) := by exact_mod_cast (Nat.div_add_mod n q).symm
  unfold nearestQuotient
  split
  · next hup =>
    have hn : (n : Int) - ((n / q + 1 : Nat) : Int) * q = (n % q : Nat) - q := by
      rw [Nat.cast_succ]; linear_combination hdiv
    rw [hn, abs_of_nonpos (by omega)]
    refine ⟨by omega, by omega⟩
  · next hdown =>
    have hn : (n : Int) - ((n / q : Nat) : Int) * q = (n % q : Nat) := by linear_combination hdiv
    rw [hn, abs_of_nonneg (by omega)]
    exact ⟨by omega, by omega⟩

/-- No whole number is nearer than one within half a divisor, and one as near is its neighbour, across a tie. -/
theorem abs_sub_mul_le_of_half {n c q : Int} (hq : 0 < q) (hc : 2 * |n - c * q| ≤ q) (j : Int) :
    |n - c * q| ≤ |n - j * q| ∧
      (j ≠ c → |n - c * q| = |n - j * q| → 2 * |n - c * q| = q ∧ (j = c + 1 ∨ c = j + 1)) := by
  by_cases hj : j = c
  · exact ⟨by rw [hj], fun h => absurd hj h⟩
  · have htri : |c - j| * q ≤ |n - c * q| + |n - j * q| := by
      calc |c - j| * q = |(n - j * q) - (n - c * q)| := by
            rw [← abs_of_pos hq, ← abs_mul, abs_of_pos hq]; congr 1; ring
        _ ≤ |n - j * q| + |n - c * q| := abs_sub _ _
        _ = _ := add_comm _ _
    have hone : 1 ≤ |c - j| := Int.one_le_abs (sub_ne_zero.2 (Ne.symm hj))
    have hle : q ≤ |c - j| * q := le_mul_of_one_le_left hq.le hone
    refine ⟨by omega, fun _ heq => ?_⟩
    have htie : |c - j| * q ≤ 1 * q := by omega
    have hnext : |c - j| ≤ 1 := le_of_mul_le_mul_right htie hq
    refine ⟨by omega, ?_⟩
    rcases abs_cases (c - j) with ⟨h, _⟩ | ⟨h, _⟩ <;> omega

theorem nearestQuotient_le (n q : Nat) : nearestQuotient n q ≤ n / q + 1 := by
  unfold nearestQuotient
  split <;> omega

/-- A rounded quotient has at most 24 significant bits: rounding up to `2 ^ 24` is `2 ^ 23` in the next quantum. -/
theorem f32Magnitude_roundRatio (num den : Nat) : F32Magnitude (roundRatio num den) := by
  have hle := nearestQuotient_le num (den * 2 ^ roundExponent num den)
  have hlt : num / (den * 2 ^ roundExponent num den) < 2 ^ 24 := roundRatio_quotient_lt num den
  rw [roundRatio_eq]
  generalize nearestQuotient num (den * 2 ^ roundExponent num den) = c at hle ⊢
  by_cases hc : c < 2 ^ 24
  · exact ⟨c, roundExponent num den, hc, rfl⟩
  · obtain rfl : c = 2 ^ 24 := by omega
    exact ⟨2 ^ 23, roundExponent num den + 1, by norm_num, by rw [pow_succ 2 (roundExponent num den)]; ring⟩

/-- A magnitude is a whole number of quanta, or lies below every number that has all 24 bits in this quantum. -/
theorem F32Magnitude.multiple_or_lt {m : Nat} (h : F32Magnitude m) (e : Nat) :
    (∃ j, m = j * 2 ^ e) ∨ (0 < e ∧ m < 2 ^ 23 * 2 ^ e) := by
  obtain ⟨k, e', hk, rfl⟩ := h
  by_cases he : e ≤ e'
  · exact .inl ⟨k * 2 ^ (e' - e), by rw [mul_assoc, ← pow_add, Nat.sub_add_cancel he]⟩
  · have hpow : 2 * 2 ^ e' ≤ 2 ^ e := by
      rw [← pow_succ']
      exact Nat.pow_le_pow_right (by norm_num) (by omega)
    have hpos : 0 < 2 ^ e' := by positivity
    refine .inr ⟨by omega, ?_⟩
    calc k * 2 ^ e' < 2 ^ 24 * 2 ^ e' := Nat.mul_lt_mul_of_pos_right hk hpos
      _ = 2 ^ 23 * (2 * 2 ^ e') := by ring
      _ ≤ 2 ^ 23 * 2 ^ e := Nat.mul_le_mul_left _ hpow

/-- A magnitude below the 24-bit numbers of the quantum is farther from the quotient than the rounded one. -/
theorem abs_sub_roundRatio_lt {num den m : Nat} (hden : 0 < den) (he : 0 < roundExponent num den)
    (hm : m < 2 ^ 23 * 2 ^ roundExponent num den) :
    |(num : Int) - roundRatio num den * den| < |(num : Int) - m * den| := by
  have hquot : 2 ^ 23 ≤ num / (den * 2 ^ roundExponent num den) := le_roundRatio_quotient he
  rw [roundRatio_eq]
  generalize roundExponent num den = e at *
  have hq : 0 < den * 2 ^ e := by positivity
  obtain ⟨hhalf, -⟩ := nearestQuotient_spec (n := num) hq
  obtain ⟨hnear, -⟩ := abs_sub_mul_le_of_half (by exact_mod_cast hq) hhalf (num / (den * 2 ^ e) : Nat)
  have hfloor : num / (den * 2 ^ e) * (den * 2 ^ e) ≤ num := Nat.div_mul_le_self _ _
  have hbelow : m * den < num / (den * 2 ^ e) * (den * 2 ^ e) := by
    calc m * den < 2 ^ 23 * 2 ^ e * den := Nat.mul_lt_mul_of_pos_right hm hden
      _ = 2 ^ 23 * (den * 2 ^ e) := by ring
      _ ≤ _ := Nat.mul_le_mul_right _ hquot
  have hassoc : ((nearestQuotient num (den * 2 ^ e) * 2 ^ e : Nat) : Int) * den =
      nearestQuotient num (den * 2 ^ e) * ((den * 2 ^ e : Nat) : Int) := by push_cast; ring
  rw [hassoc]
  zify at hfloor hbelow
  push_cast at hnear hfloor hbelow ⊢
  rw [abs_of_nonneg (sub_nonneg.2 hfloor)] at hnear
  rw [abs_of_nonneg (a := (num : Int) - m * den) (by omega)]
  omega

/-- `roundRatio` rounds to nearest, ties to even: the quotient in its quantum does, and every magnitude that is no
whole number of quanta is farther away. -/
theorem nearestEven_roundRatio (num : Nat) {den : Nat} (hden : 0 < den) :
    NearestEven num den (roundRatio num den) := by
  have hq : 0 < den * 2 ^ roundExponent num den := by positivity
  obtain ⟨hhalf, htie⟩ := nearestQuotient_spec (n := num) hq
  have hround : (roundRatio num den : Int) * den =
      nearestQuotient num (den * 2 ^ roundExponent num den) * ((den * 2 ^ roundExponent num den : Nat) : Int) := by
    rw [roundRatio_eq]; push_cast; ring
  have hmultiple (j : Nat) : ((j * 2 ^ roundExponent num den : Nat) : Int) * den =
      j * ((den * 2 ^ roundExponent num den : Nat) : Int) := by push_cast; ring
  have hnear := abs_sub_mul_le_of_half (by exact_mod_cast hq) hhalf
  rw [← hround] at hnear hhalf htie
  refine ⟨f32Magnitude_roundRatio num den, fun m hm => ?_, fun m hm hne heq => ?_⟩
  · obtain ⟨j, rfl⟩ | ⟨he, hlt⟩ := hm.multiple_or_lt (roundExponent num den)
    · rw [hmultiple j]
      exact (hnear j).1
    · exact (abs_sub_roundRatio_lt hden he hlt).le
  · obtain ⟨j, rfl⟩ | ⟨he, hlt⟩ := hm.multiple_or_lt (roundExponent num den)
    · rw [hmultiple j] at heq
      have hjc : (j : Int) ≠ nearestQuotient num (den * 2 ^ roundExponent num den) := fun h =>
        hne (by rw [roundRatio_eq, Int.ofNat_inj.1 h])
      obtain ⟨hbetween, hneighbour⟩ := (hnear j).2 hjc heq
      refine ⟨_, roundExponent num den, roundRatio_eq num den, htie hbetween, ?_⟩
      rw [roundRatio_eq]
      obtain h | h := hneighbour
      · left
        have : j = nearestQuotient num (den * 2 ^ roundExponent num den) + 1 := by omega
        rw [this, Nat.add_mul, Nat.one_mul]
      · right
        have : nearestQuotient num (den * 2 ^ roundExponent num den) = j + 1 := by omega
        rw [this, Nat.add_mul, Nat.one_mul]
    · exact absurd heq (abs_sub_roundRatio_lt hden he hlt).ne

/-- A magnitude that binary32 holds is not rounded. -/
theorem roundRatio_mul_self {m den : Nat} (hm : F32Magnitude m) (hden : 0 < den) : roundRatio (m * den) den = m := by
  obtain ⟨-, hnear, -⟩ := nearestEven_roundRatio (m * den) hden
  have h := hnear m hm
  push_cast at h
  rw [sub_self, abs_zero, abs_nonpos_iff, ← sub_mul, mul_eq_zero] at h
  omega

/-- Scaling the numerator and the denominator alike changes no distance. -/
theorem NearestEven.of_mul_right {num den r d : Nat} (hd : 0 < d) (h : NearestEven (num * d) (den * d) r) :
    NearestEven num den r := by
  have hd' : (0 : Int) < d := by exact_mod_cast hd
  have hscale (m : Nat) : |((num * d : Nat) : Int) - m * ((den * d : Nat) : Int)| = |(num : Int) - m * den| * d := by
    calc |((num * d : Nat) : Int) - m * ((den * d : Nat) : Int)| = |((num : Int) - m * den) * d| := by
          push_cast; congr 1; ring
      _ = _ := by rw [abs_mul, abs_of_pos hd']
  obtain ⟨hmag, hnear, heven⟩ := h
  refine ⟨hmag, fun m hm => ?_, fun m hm hne heq => heven m hm hne ?_⟩
  · exact le_of_mul_le_mul_right (by simpa only [hscale] using hnear m hm) hd'
  · rw [hscale, hscale, heq]

end Sys2Proof.Machine
end

section
/-! When a configuration is well formed (70_reset_and_hazards.md R131, R132). -/
namespace Sys2Proof.Machine

theorem cfgProfileOk_iff (c : Cfg) : cfgProfileOk c = true ↔ ∃ p, c.profiles = [p] := by
  rw [cfgProfileOk, beq_iff_eq, List.length_eq_one_iff]

theorem idleInReferenceRange_iff (bidir : Bool) (idle : Int) : idleInReferenceRange bidir idle = true ↔
    (bidir = true → 0 ≤ idle ∧ idle ≤ 999) ∧ (bidir = false → 1 ≤ idle ∧ idle ≤ 500) := by
  cases bidir <;> simp [idleInReferenceRange]

theorem forall_direction {p : Direction → Prop} : (∀ d, p d) ↔ p .forward ∧ p .reverse :=
  ⟨fun h => ⟨h _, h _⟩, fun ⟨hf, hr⟩ d => by cases d <;> assumption⟩

theorem cfgIdleOk_iff (c : Cfg) : cfgIdleOk c = true ↔
    (c.mapFn = .reference → (c.bidir = true → 0 ≤ c.idleOffset ∧ c.idleOffset ≤ 999) ∧
      (c.bidir = false → 1 ≤ c.idleOffset ∧ c.idleOffset ≤ 500)) ∧
    (c.mapFn = .supplied → ∀ d, rangeLo c.bidir d c.idleOffset ≤ rangeHi c.bidir d) := by
  cases hm : c.mapFn with
  | reference => simp [cfgIdleOk, hm, idleInReferenceRange_iff]
  | supplied => simp [cfgIdleOk, hm, forall_direction]

theorem cfgMapFnOk_iff (c : Cfg) : cfgMapFnOk c = true ↔ (c.mapFn = .supplied → ∀ d, MeetsR90 c d) := by
  cases hm : c.mapFn with
  | reference => simp [cfgMapFnOk, hm]
  | supplied => simp [cfgMapFnOk, hm, forall_direction, meetsR90_iff]

theorem cfgCodesOk_iff (c : Cfg) : cfgCodesOk c = true ↔
    c.beepCode1 ≤ 2047 ∧ c.beepCode2 ≤ 2047 ∧ c.beepCode3 ≤ 2047 ∧ c.beepCode4 ≤ 2047 := by
  simp [cfgCodesOk, and_assoc]

/-- R131's timing clauses profile by profile, with the distance from twice the fast bit as an absolute value. -/
theorem meetsCfgTiming_iff (t : Timing) : meetsCfgTiming t ↔
    (∀ p, 4 * slotTime t p = bitTime t p) ∧ t.nopSet < t.nopReset ∧ 0 < t.bitFast ∧
      |(t.bitSlow : Int) - 2 * t.bitFast| ≤ slowTolerance t.bitFast := by
  have hprofile : (∀ p, 4 * slotTime t p = bitTime t p) ↔ t.bitFast = 4 * t.slotFast ∧ t.bitSlow = 4 * t.slotSlow :=
    ⟨fun h => ⟨(h .fast).symm, (h .slow).symm⟩, fun ⟨hf, hs⟩ p => by cases p; exacts [hf.symm, hs.symm]⟩
  rw [hprofile, abs_le]
  omega

theorem cfgTimingOk_iff (c : Cfg) : cfgTimingOk c = true ↔ meetsCfgTiming (timingOf c) := by
  refine ⟨timingOf_ok, fun h => ?_⟩
  cases ht : c.timing with
  | unstated => simp only [cfgTimingOk, ht]
  | given t =>
    simp only [timingOf, ht] at h
    simpa only [cfgTimingOk, ht, decide_eq_true_eq] using h

/-- Settles O15: each of the seven checks says its rule. -/
theorem cfgWellFormedIff : Obligations.CfgWellFormedIff := by
  intro c
  rw [failingCheck_none, cfgProfileOk_iff, cfgIdleOk_iff, cfgTimeoutOk, cfgCodesOk_iff, cfgMapFnOk_iff, cfgFsResetOk,
    cfgTimingOk_iff, meetsCfgTiming_iff, decide_eq_true_iff, decide_eq_true_iff, and_assoc]

end Sys2Proof.Machine
end

section
/-! The place of a throttle on the number line, and the clamp (42_throttle_failsafe.md R88). -/
namespace Sys2Proof.Machine

theorem f32Place_of_lt {t : Word} (h : t.toNat < 2 ^ 31) : f32Place t = t.toNat := by
  have hmsb : t.msb = false := by rw [BitVec.msb_eq_decide]; simpa using h
  rw [f32Place, hmsb, if_neg Bool.false_ne_true, BitVec.extractLsb'_toNat, Nat.shiftRight_zero, Nat.mod_eq_of_lt h]

theorem f32Place_of_le {t : Word} (h : 2 ^ 31 ≤ t.toNat) : f32Place t = 2 ^ 31 - t.toNat := by
  have hmsb : t.msb = true := by rw [BitVec.msb_eq_decide]; simpa using h
  have := t.isLt
  rw [f32Place, hmsb, if_pos rfl, BitVec.extractLsb'_toNat, Nat.shiftRight_zero]
  omega

theorem f32Place_clampHi : f32Place clampHi = 0x3F7FBE77 := f32Place_of_lt (by decide)

theorem f32Lt_of_number {a b : Word} (ha : isNaN a = false) (hb : isNaN b = false) :
    f32Lt a b = decide (f32Place a < f32Place b) := by
  rw [f32Lt, ha, hb]
  rfl

theorem isNaN_of_le_clampHi {t : Word} (h : t.toNat ≤ 0x3F7FBE77) : isNaN t = false := by
  have hexp : t.extractLsb' 23 8 ≠ 0xFF := fun heq => by
    have := congrArg BitVec.toNat heq
    simp only [BitVec.extractLsb'_toNat, Nat.shiftRight_eq_div_pow, BitVec.ofNat_eq_ofNat, BitVec.toNat_ofNat] at this
    omega
  rw [isNaN, beq_false_of_ne hexp, Bool.false_and]

/-- The clamped patterns are the numbers from 0 to `CLAMP_HI`, with both zeros. -/
theorem clamped_iff {t : Word} :
    clamped t = true ↔ isNaN t = false ∧ 0 ≤ f32Place t ∧ f32Place t ≤ f32Place clampHi := by
  have hiff : clamped t = true ↔ t = 0x80000000 ∨ t.toNat ≤ 0x3F7FBE77 := by
    rw [clamped, Bool.or_eq_true, beq_iff_eq, decide_eq_true_iff]; rfl
  rw [hiff, f32Place_clampHi]
  constructor
  · rintro (rfl | h)
    · decide
    · rw [f32Place_of_lt (by omega)]
      exact ⟨isNaN_of_le_clampHi h, by omega, by omega⟩
  · rintro ⟨-, hlo, hhi⟩
    by_cases hsign : t.toNat < 2 ^ 31
    · rw [f32Place_of_lt hsign] at hhi
      exact .inr (by omega)
    · rw [f32Place_of_le (Nat.not_lt.1 hsign)] at hlo
      exact .inl (BitVec.eq_of_toNat_eq (show t.toNat = 2 ^ 31 by omega))

/-- The clamp by places: below 0, above `CLAMP_HI`, or in between (R88). -/
theorem clampThr_of_number {t : Word} (h : isNaN t = false) :
    clampThr t = if f32Place t < 0 then 0 else if f32Place clampHi < f32Place t then clampHi else t := by
  have h0 : f32Place 0 = 0 := by decide
  rw [clampThr, f32Lt_of_number h (by decide), f32Lt_of_number (by decide) h, h0]
  simp only [decide_eq_true_eq]

theorem f32Place_clampThr {t : Word} (h : isNaN t = false) :
    f32Place (clampThr t) = max 0 (min (f32Place clampHi) (f32Place t)) := by
  have h0 : f32Place 0 = 0 := by decide
  rw [clampThr_of_number h, f32Place_clampHi]
  split
  · rw [h0]; omega
  · split
    · rw [f32Place_clampHi]; omega
    · omega

theorem isNaN_clampThr {t : Word} (h : isNaN t = false) : isNaN (clampThr t) = false := by
  rw [clampThr_of_number h]
  split
  · decide
  · split
    · decide
    · exact h

theorem clamped_clampThr {t : Word} (h : isNaN t = false) : clamped (clampThr t) = true := by
  rw [clamped_iff, f32Place_clampThr h, f32Place_clampHi]
  exact ⟨isNaN_clampThr h, by omega, by omega⟩

/-- Settles O33: the three cases by places, which no two of them share. -/
theorem clampRule : Obligations.ClampRule := by
  intro t h
  have h0 : f32Place 0 = 0 := by decide
  have hhi := f32Place_clampHi
  rw [f32Lt_of_number h (by decide), f32Lt_of_number (by decide) h, clampThr_of_number h, h0]
  simp only [decide_eq_true_eq, decide_eq_false_iff_not]
  refine ⟨fun hneg => if_pos hneg, fun hbig => ?_, fun hneg hbig => ?_, ?_, ?_, fun hc => ?_⟩
  · rw [if_neg (by omega), if_pos hbig]
  · rw [if_neg hneg, if_neg hbig]
  · rw [← clampThr_of_number h]; exact clamped_clampThr h
  · rw [← clampThr_of_number h]; exact f32Place_clampThr h
  · obtain ⟨-, hlo, hle⟩ := clamped_iff.1 hc
    rw [if_neg hlo.not_gt, if_neg hle.not_gt]

end Sys2Proof.Machine
end

section
/-! The reference `MAP_FN`: R91's product, its endpoints, bounds and order (42_throttle_failsafe.md R89, R90, R91,
R98). -/
namespace Sys2Proof.Machine

/-- The rounded product of a throttle and a scale, in units of `2^-149`. -/
def mapProduct (scale : Nat) (t : Word) : Nat := roundRatio ((F32.ofWord t).mag * scale * 2 ^ 149) (2 ^ 149)

theorem nearestEven_mapProduct (scale : Nat) (t : Word) :
    NearestEven ((F32.ofWord t).mag * scale) 1 (mapProduct scale t) := by
  have hpos : 0 < 2 ^ 149 := by positivity
  refine NearestEven.of_mul_right hpos ?_
  rw [one_mul]
  exact nearestEven_roundRatio _ hpos

theorem mapProduct_mono {a b : Word} (h : (F32.ofWord a).mag ≤ (F32.ofWord b).mag) (scale : Nat) :
    mapProduct scale a ≤ mapProduct scale b :=
  roundRatio_mono _ (Nat.mul_le_mul_right _ (Nat.mul_le_mul_right _ h))

/-- A magnitude at most the exact product is at most the rounded one. -/
theorem le_mapProduct {m scale : Nat} {t : Word} (hm : F32Magnitude m) (h : m ≤ (F32.ofWord t).mag * scale) :
    m ≤ mapProduct scale t := by
  rw [← roundRatio_mul_self hm (show 0 < 2 ^ 149 by positivity)]
  exact roundRatio_mono _ (Nat.mul_le_mul_right _ h)

/-- A magnitude at least the exact product is at least the rounded one. -/
theorem mapProduct_le {m scale : Nat} {t : Word} (hm : F32Magnitude m) (h : (F32.ofWord t).mag * scale ≤ m) :
    mapProduct scale t ≤ m := by
  rw [← roundRatio_mul_self hm (show 0 < 2 ^ 149 by positivity)]
  exact roundRatio_mono _ (Nat.mul_le_mul_right _ h)

theorem mapProduct_of_mag_eq_zero {t : Word} (h : (F32.ofWord t).mag = 0) (scale : Nat) : mapProduct scale t = 0 :=
  Nat.le_zero.1 (mapProduct_le ⟨0, 0, by norm_num, rfl⟩ (by rw [h, Nat.zero_mul]))

/-- `CLAMP_HI` is `16760439 / 2 ^ 24`. -/
theorem ofWord_clampHi_mag : (F32.ofWord clampHi).mag = 16760439 * 2 ^ 125 := by
  rw [ofWord_mag_of_lt (by decide)]
  decide

/-- The whole part of the product at `CLAMP_HI`: `k` when the exact product is between `k` and `k + 1`, and not so near
`k + 1` that rounding reaches it. -/
theorem mapProduct_clampHi_div {scale k : Nat} (hk : k + 1 < 2 ^ 11) (hlo : k * 2 ^ 24 ≤ 16760439 * scale)
    (hhi : 16760439 * scale + 2 ^ 11 ≤ (k + 1) * 2 ^ 24) : mapProduct scale clampHi / 2 ^ 149 = k := by
  have hexact : (F32.ofWord clampHi).mag * scale = 16760439 * scale * 2 ^ 125 := by rw [ofWord_clampHi_mag]; ring
  have hbelow : k * 2 ^ 149 ≤ mapProduct scale clampHi := by
    refine le_mapProduct ⟨k, 149, by omega, rfl⟩ ?_
    rw [hexact]
    calc k * 2 ^ 149 = k * 2 ^ 24 * 2 ^ 125 := by ring
      _ ≤ _ := Nat.mul_le_mul_right _ hlo
  have habove : mapProduct scale clampHi ≤ ((k + 1) * 2 ^ 13 - 1) * 2 ^ 136 := by
    refine mapProduct_le ⟨(k + 1) * 2 ^ 13 - 1, 136, by omega, rfl⟩ ?_
    rw [hexact]
    calc 16760439 * scale * 2 ^ 125 ≤ ((k + 1) * 2 ^ 13 - 1) * 2 ^ 11 * 2 ^ 125 :=
          Nat.mul_le_mul_right _ (by omega)
      _ = _ := by ring
  have hpos : 0 < 2 ^ 136 := by positivity
  refine Nat.div_eq_of_lt_le hbelow ?_
  calc mapProduct scale clampHi ≤ ((k + 1) * 2 ^ 13 - 1) * 2 ^ 136 := habove
    _ < ((k + 1) * 2 ^ 13) * 2 ^ 136 := Nat.mul_lt_mul_of_pos_right (by omega) hpos
    _ = (k + 1) * 2 ^ 149 := by ring

theorem ofWord_negZero_mag : (F32.ofWord 0x80000000).mag = 0 := by decide

theorem ofWord_zero_mag : (F32.ofWord 0).mag = 0 := by decide

theorem clamped_cases {t : Word} (h : clamped t = true) : t = 0x80000000 ∨ t.toNat ≤ clampHi.toNat := by
  rwa [clamped, Bool.or_eq_true, beq_iff_eq, decide_eq_true_iff] at h

theorem clampHi_toNat_lt : clampHi.toNat < 2 ^ 31 := by decide

/-- Among clamped throttles the magnitude rises with the place (R90 c). -/
theorem ofWord_mag_le_of_place {a b : Word} (ha : clamped a = true) (hb : clamped b = true)
    (h : f32Place a ≤ f32Place b) : (F32.ofWord a).mag ≤ (F32.ofWord b).mag := by
  have hhi := clampHi_toNat_lt
  obtain rfl | ha' := clamped_cases ha
  · rw [ofWord_negZero_mag]
    exact Nat.zero_le _
  rw [f32Place_of_lt (by omega)] at h
  obtain rfl | hb' := clamped_cases hb
  · have hplace : f32Place 0x80000000 = 0 := by decide
    obtain rfl : a = 0 := BitVec.eq_of_toNat_eq (show a.toNat = 0 by omega)
    rw [ofWord_zero_mag]
    exact Nat.zero_le _
  · rw [f32Place_of_lt (by omega)] at h
    exact ofWord_mag_mono (by omega) (by exact_mod_cast h)

/-- A clamped throttle's product is not negative, so truncation is the whole part (R91). -/
theorem trunc32_fmul32 {t : Word} (ht : clamped t = true) {scale : Int} (hs : 0 ≤ scale) :
    trunc32 (fmul32 (F32.ofWord t) (flt32 scale)) = (mapProduct scale.toNat t / 2 ^ 149 : Nat) := by
  have hmag : (fmul32 (F32.ofWord t) (flt32 scale)).mag = mapProduct scale.toNat t := by
    have habs : scale.natAbs = scale.toNat := by omega
    rw [fmul32, flt32, mapProduct, habs, Nat.mul_assoc]
  have hneg : (fmul32 (F32.ofWord t) (flt32 scale)).neg = t.msb := by
    simp [fmul32, flt32, F32.ofWord, hs.not_gt]
  rw [trunc32, hmag, hneg]
  obtain rfl | h := clamped_cases ht
  · rw [mapProduct_of_mag_eq_zero ofWord_negZero_mag]
    rfl
  · have hhi := clampHi_toNat_lt
    have hmsb : t.msb = false := by rw [BitVec.msb_eq_decide]; simp; omega
    rw [hmsb, if_neg Bool.false_ne_true]

/-- R132's range keeps the low end at least 0 and the scale positive. -/
theorem reference_range {c : Cfg} (hcfg : failingCheck c = none) (hm : c.mapFn = .reference) (d : Direction) :
    0 ≤ rangeLo c.bidir d c.idleOffset ∧ 0 < mapScale c.bidir c.idleOffset := by
  obtain ⟨-, hidle, -⟩ := (cfgWellFormedIff c).1 hcfg
  obtain ⟨hon, hoff⟩ := hidle hm
  cases hb : c.bidir with
  | true =>
    have := hon hb
    cases d <;> simp only [rangeLo, mapScale, if_true] <;> omega
  | false =>
    have := hoff hb
    simp only [rangeLo, mapScale, if_neg Bool.false_ne_true]
    omega

/-- The reference map at a clamped throttle: `lo` plus the whole part of the rounded product (R91). -/
theorem mapFn_reference {c : Cfg} (hcfg : failingCheck c = none) (hm : c.mapFn = .reference) (d : Direction) {t : Word}
    (ht : clamped t = true) : (mapFn c d t : Int) =
      rangeLo c.bidir d c.idleOffset + (mapProduct (mapScale c.bidir c.idleOffset).toNat t / 2 ^ 149 : Nat) := by
  obtain ⟨hlo, hscale⟩ := reference_range hcfg hm d
  simp only [mapFn, hm, referenceMap, trunc32_fmul32 ht hscale.le]
  exact Int.toNat_of_nonneg (by omega)

/-- At `CLAMP_HI` the product's whole part is the width of the range, over R132's whole range of offsets (R91). -/
theorem rangeLo_add_mapProduct_clampHi {c : Cfg} (hcfg : failingCheck c = none) (hm : c.mapFn = .reference)
    (d : Direction) : rangeLo c.bidir d c.idleOffset +
      (mapProduct (mapScale c.bidir c.idleOffset).toNat clampHi / 2 ^ 149 : Nat) = rangeHi c.bidir d := by
  obtain ⟨-, hidle, -⟩ := (cfgWellFormedIff c).1 hcfg
  obtain ⟨hon, hoff⟩ := hidle hm
  cases hb : c.bidir with
  | true =>
    have := hon hb
    have hscale : (mapScale true c.idleOffset).toNat = (999 - c.idleOffset).toNat + 1 := by
      simp only [mapScale, if_true]; omega
    rw [hscale, mapProduct_clampHi_div (k := (999 - c.idleOffset).toNat) (by omega) (by omega) (by omega)]
    cases d <;> simp only [rangeLo, rangeHi] <;> omega
  | false =>
    have := hoff hb
    have hscale : (mapScale false c.idleOffset).toNat = (1999 - 2 * c.idleOffset).toNat + 2 := by
      simp only [mapScale, if_neg Bool.false_ne_true]; omega
    rw [hscale, mapProduct_clampHi_div (k := (1999 - 2 * c.idleOffset).toNat) (by omega) (by omega) (by omega)]
    simp only [rangeLo, rangeHi]
    omega

/-- R91's claim: the reference map meets R90. -/
theorem meetsR90_reference {c : Cfg} (hcfg : failingCheck c = none) (hm : c.mapFn = .reference) (d : Direction) :
    MeetsR90 c d := by
  have hmap {t : Word} (ht : clamped t = true) := mapFn_reference hcfg hm d ht
  have hmono {a b : Word} (ha : clamped a = true) (hb : clamped b = true) (h : f32Place a ≤ f32Place b) :
      mapFn c d a ≤ mapFn c d b := by
    have hdiv := Nat.div_le_div_right (c := 2 ^ 149)
      (mapProduct_mono (ofWord_mag_le_of_place ha hb h) (mapScale c.bidir c.idleOffset).toNat)
    zify
    rw [hmap ha, hmap hb]
    omega
  have hhi : clamped clampHi = true := by decide
  have htop : (mapFn c d clampHi : Int) = rangeHi c.bidir d :=
    (hmap hhi).trans (rangeLo_add_mapProduct_clampHi hcfg hm d)
  refine ⟨?zero, htop, fun t ht => ⟨?low, ?high⟩, fun a b ha hb h => ?mono⟩
  case zero =>
    rw [hmap (by decide), mapProduct_of_mag_eq_zero ofWord_zero_mag]
    exact add_zero _
  case low => rw [hmap ht]; omega
  case high =>
    obtain ⟨-, -, hle⟩ := clamped_iff.1 ht
    rw [← htop]
    exact_mod_cast hmono ht hhi hle
  case mono =>
    obtain ⟨hna, -⟩ := clamped_iff.1 ha
    obtain ⟨hnb, -⟩ := clamped_iff.1 hb
    rw [f32Lt_of_number hnb hna, decide_eq_false_iff_not, not_lt] at h
    exact hmono ha hb h

/-- Settles O34: the reference map meets R90 by R91's arithmetic, a supplied one by the configuration's check. -/
theorem mapFnMeetsR90 : Obligations.MapFnMeetsR90 := by
  intro c d hcfg
  cases hm : c.mapFn with
  | reference => exact meetsR90_reference hcfg hm d
  | supplied =>
    obtain ⟨-, -, -, -, -, hmeets, -⟩ := (cfgWellFormedIff c).1 hcfg
    exact hmeets hm d

/-- Settles O35: `roundRatio` rounds to nearest, and the reference map adds the whole part of the rounded product. -/
theorem referenceMapRounds : Obligations.ReferenceMapRounds := by
  refine ⟨fun num den hden => nearestEven_roundRatio num hden, fun c d t hcfg hm ht => ?_⟩
  obtain ⟨-, hscale⟩ := reference_range hcfg hm d
  refine ⟨mapProduct (mapScale c.bidir c.idleOffset).toNat t, rangeLo c.bidir d c.idleOffset,
    mapScale c.bidir c.idleOffset, ?_, rfl, hscale, nearestEven_mapProduct _ t, mapFn_reference hcfg hm d ht⟩
  cases c.bidir <;> cases d <;> rfl

end Sys2Proof.Machine
end

section
/-! MAP's value: its range and its order (42_throttle_failsafe.md R89, R95, R98). -/
namespace Sys2Proof.Machine

theorem rangeHi_le (bidir : Bool) (d : Direction) : rangeHi bidir d ≤ 2047 := by
  cases bidir <;> cases d <;> decide

/-- The base mapping of a clamped throttle is in the mapped range and fits the 11-bit value (R89, R90 b). -/
theorem baseValue_range {c : Cfg} (hcfg : failingCheck c = none) (d : Direction) {t : Word} (ht : clamped t = true) :
    (BitVec.ofNat 11 (mapFn c d t)).toNat = mapFn c d t ∧
      rangeLo c.bidir d c.idleOffset ≤ mapFn c d t ∧ (mapFn c d t : Int) ≤ rangeHi c.bidir d := by
  obtain ⟨-, -, hbounds, -⟩ := mapFnMeetsR90 c d hcfg
  obtain ⟨hlo, hhi⟩ := hbounds t ht
  have htop := rangeHi_le c.bidir d
  exact ⟨by rw [BitVec.toNat_ofNat]; omega, hlo, hhi⟩

/-- Settles O38: the value is 0, or the base mapping of the clamped throttle. -/
theorem mapValueInRange : Obligations.MapValueInRange := by
  intro ch gnd fs s hcfg hn
  obtain ⟨t, hexec, -, -, hvalue, -⟩ := mapResult ch gnd fs s hn
  refine ⟨t, hexec, ?_⟩
  rw [hvalue]
  split
  · exact .inl rfl
  · obtain ⟨hfit, hrange⟩ := baseValue_range hcfg s.dir (clamped_clampThr hn)
    rw [hfit]
    exact .inr hrange

/-- Settles O39: the clamp keeps the order of two throttles, and `MAP_FN` keeps it on clamped ones. -/
theorem mapMonotone : Obligations.MapMonotone := by
  intro ch fs s a b hcfg _ hna hnb hle hcut
  have hvalue (x : Word) (hx : isNaN x = false) : ∃ t, exec (.map ch false fs) { s with thr := x } = .next t ∧
      (t.resp.extractLsb' 0 11).toNat = mapFn s.cfg s.dir (clampThr x) := by
    obtain ⟨t, hexec, -, ht⟩ :=
      exec_map_or_throttle (s := { s with thr := x }) hx (.inl (Eq.refl (Instr.map ch false fs)))
    obtain ⟨hfit, -⟩ := baseValue_range hcfg s.dir (clamped_clampThr hx)
    exact ⟨t, hexec, by rw [ht, mapValue_of_not_cut (s := { s with thr := x }) hcut, hfit]⟩
  obtain ⟨t, ht, hta⟩ := hvalue a hna
  obtain ⟨u, hu, hub⟩ := hvalue b hnb
  refine ⟨t, u, ht, hu, ?_⟩
  obtain ⟨-, -, -, hmono⟩ := mapFnMeetsR90 s.cfg s.dir hcfg
  rw [hta, hub]
  refine hmono _ _ (clamped_clampThr hna) (clamped_clampThr hnb) ?_
  rw [f32Lt_of_number hnb hna, decide_eq_false_iff_not] at hle
  rw [f32Lt_of_number (isNaN_clampThr hnb) (isNaN_clampThr hna), f32Place_clampThr hna, f32Place_clampThr hnb,
    decide_eq_false_iff_not]
  omega

end Sys2Proof.Machine
end

section
/-! The timed waveform of a TRANSMIT (41_transmitter.md R81, R82, R85; 70_reset_and_hazards.md R145). -/
namespace Sys2Proof.Machine

theorem map_snd_timedEvents (s : State) (p : Profile) (t0 : Nat) :
    (timedEvents s p t0).map Prod.snd = transmitEvents s := by
  simp only [timedEvents, transmitEvents, List.map_flatMap, List.map_map]
  rfl

theorem mem_timedEvents {s : State} {p : Profile} {t0 time : Nat} {i : Slot} {ch : Channel} {level : Bool}
    (h : (time, TraceRec.pinWrite i ch level) ∈ timedEvents s p t0) :
    time = writeTime (timingOf s.cfg) p t0 i ch (s.tlRead i) := by
  simp only [timedEvents, List.mem_flatMap, List.mem_map, Prod.mk.injEq, TraceRec.pinWrite.injEq] at h
  obtain ⟨_, -, _, -, rfl, rfl, rfl, -⟩ := h
  rfl

/-- A write happens before its slot ends, when a slot lasts some time (R82). -/
theorem writeOffset_lt {tm : Timing} {p : Profile} (h : 0 < slotTime tm p) (ch : Channel) (d : Byte) :
    writeOffset tm p ch d < slotTime tm p := by
  unfold writeOffset
  omega

/-- Two writes of one slot value are at most the skew apart (R82). -/
theorem writeOffset_le_add_skew (tm : Timing) (p : Profile) (ch ch' : Channel) (d : Byte) :
    writeOffset tm p ch d ≤ writeOffset tm p ch' d + tm.edgeSkewMax := by
  have hlag := Nat.mod_lt (Config.offLag ch d) (show 0 < tm.edgeSkewMax + 1 by omega)
  unfold writeOffset
  omega

theorem slotTime_pos {tm : Timing} (h : meetsCfgTiming tm) (p : Profile) : 0 < slotTime tm p := by
  have hslow := bitFast_lt_bitSlow h
  obtain ⟨hfast, hfast4, hslow4, -⟩ := h
  cases p <;> simp only [slotTime] <;> omega

/-- Settles O57: the events' times by the two bounds of a write offset, the durations by `CFG_TIMING`. -/
theorem waveformTiming : Obligations.WaveformTiming := by
  intro s t0 hcfg
  obtain ⟨⟨p, hp⟩, -, -, -, -, -, -, hslots, hnop, hfast, hslow⟩ := (cfgWellFormedIff s.cfg).1 hcfg
  have htiming : meetsCfgTiming (timingOf s.cfg) := (meetsCfgTiming_iff _).2 ⟨hslots, hnop, hfast, hslow⟩
  have hselected : selectedProfile s.cfg = some p := by rw [selectedProfile, hp]
  have hquarter : 4 * slotTime (timingOf s.cfg) p = bitTime (timingOf s.cfg) p := hslots p
  have hduration : slotDuration s.cfg = some (slotTime (timingOf s.cfg) p) := by
    rw [slotDuration, hselected, Option.map_some]
  refine ⟨p, timedEvents s p t0, hp, ?_, map_snd_timedEvents s p t0, ?inSlot, ?skew, ?slot, hquarter, ?whole, hnop,
    bitFast_lt_bitSlow htiming, hslow⟩
  · rw [waveform, hselected, Option.map_some]
  case inSlot =>
    intro time i ch level hmem
    have hlt := writeOffset_lt (slotTime_pos htiming p) ch (s.tlRead i)
    rw [mem_timedEvents hmem, writeTime, Nat.add_one_mul]
    omega
  case skew =>
    intro time time' i ch ch' level level' hmem hmem'
    have hle := writeOffset_le_add_skew (timingOf s.cfg) p ch ch' (s.tlRead i)
    rw [mem_timedEvents hmem, mem_timedEvents hmem', writeTime, writeTime]
    omega
  case slot => rw [hduration, ← hquarter, Nat.mul_div_cancel_left _ (by norm_num)]
  case whole => rw [transmitTime, hduration, Option.map_some, ← hquarter]; congr 1; ring

end Sys2Proof.Machine
end

section
/-! Assembly lines and the two pseudo-commands (30_encoding.md R52, R61, R62). -/
namespace Sys2Proof.Machine

theorem flagBit_toNat {n : Nat} (h : n < 2) : (flagBit (n == 1)).toNat = n := by
  interval_cases n <;> rfl

theorem encode_encode_word {ch value tlm : Nat} (hch : ch < 4) (hvalue : value < 2048) (htlm : tlm < 2) :
    encode (.encode (Fin.ofNat 4 ch) (BitVec.ofNat 11 value) (tlm == 1)) =
      BitVec.ofNat 32 (1 + 2 ^ 4 * ch + 2 ^ 6 * value + 2 ^ 17 * tlm) := by
  simp [encode, Instr.fields, Fields.toWord, flagBit_toNat htlm, Nat.mod_eq_of_lt hch, Nat.mod_eq_of_lt hvalue]

theorem encode_map_word {ch gnd fs : Nat} (hch : ch < 4) (hgnd : gnd < 2) (hfs : fs < 2) :
    encode (.map (Fin.ofNat 4 ch) (gnd == 1) (fs == 1)) =
      BitVec.ofNat 32 (3 + 2 ^ 4 * ch + 2 ^ 19 * gnd + 2 ^ 20 * fs) := by
  simp [encode, Instr.fields, Fields.toWord, flagBit_toNat hgnd, flagBit_toNat hfs, Nat.mod_eq_of_lt hch]

theorem encode_throttle_word {ch gnd fs : Nat} (hch : ch < 4) (hgnd : gnd < 2) (hfs : fs < 2) :
    encode (.throttle (Fin.ofNat 4 ch) (gnd == 1) (fs == 1)) =
      BitVec.ofNat 32 (4 + 2 ^ 4 * ch + 2 ^ 19 * gnd + 2 ^ 20 * fs) := by
  simp [encode, Instr.fields, Fields.toWord, flagBit_toNat hgnd, flagBit_toNat hfs, Nat.mod_eq_of_lt hch]

theorem encode_beepTick_word {fs : Nat} (hfs : fs < 2) :
    encode (.beepTick (fs == 1)) = BitVec.ofNat 32 (5 + 2 ^ 20 * fs) := by
  simp [encode, Instr.fields, Fields.toWord, flagBit_toNat hfs]

/-- A line's ranges as a proposition decide whether it has commands (R61). -/
theorem assemble_eq_ite {a : Asm} {p : Prop} [Decidable p] (hok : a.operandsOk = true ↔ p) {l : List Command}
    (hl : p → a.commands = l) : assemble a = if p then some l else none := by
  unfold assemble
  by_cases hp : p
  · rw [if_pos (hok.2 hp), if_pos hp, hl hp]
  · rw [if_neg (hok.not.2 hp), if_neg hp]

theorem assemble_encode (ch value tlm : Nat) : assemble (.encode ch value tlm) =
    if ch < 4 ∧ value < 2048 ∧ tlm < 2 then
      some [⟨BitVec.ofNat 32 (1 + 2 ^ 4 * ch + 2 ^ 6 * value + 2 ^ 17 * tlm), 0, 0⟩]
    else none :=
  assemble_eq_ite (by simp [Asm.operandsOk, and_assoc]) fun ⟨hch, hvalue, htlm⟩ => by
    rw [Asm.commands, plainCommand, encode_encode_word hch hvalue htlm]

theorem assemble_map (ch now gnd fs : Nat) (thr : ThrLit) : assemble (.map ch thr now gnd fs) =
    if ch < 4 ∧ now < 2 ^ 32 ∧ gnd < 2 ∧ fs < 2 then
      some [⟨BitVec.ofNat 32 (3 + 2 ^ 4 * ch + 2 ^ 19 * gnd + 2 ^ 20 * fs), thr.word, BitVec.ofNat 32 now⟩]
    else none :=
  assemble_eq_ite (by simp [Asm.operandsOk, and_assoc]) fun ⟨hch, _, hgnd, hfs⟩ => by
    rw [Asm.commands, timedCommand, encode_map_word hch hgnd hfs]

theorem assemble_throttle (ch now gnd fs : Nat) (thr : ThrLit) : assemble (.throttle ch thr now gnd fs) =
    if ch < 4 ∧ now < 2 ^ 32 ∧ gnd < 2 ∧ fs < 2 then
      some [⟨BitVec.ofNat 32 (4 + 2 ^ 4 * ch + 2 ^ 19 * gnd + 2 ^ 20 * fs), thr.word, BitVec.ofNat 32 now⟩]
    else none :=
  assemble_eq_ite (by simp [Asm.operandsOk, and_assoc]) fun ⟨hch, _, hgnd, hfs⟩ => by
    rw [Asm.commands, timedCommand, encode_throttle_word hch hgnd hfs]

theorem assemble_beepTick (now fs : Nat) : assemble (.beepTick now fs) =
    if now < 2 ^ 32 ∧ fs < 2 then some [⟨BitVec.ofNat 32 (5 + 2 ^ 20 * fs), 0, BitVec.ofNat 32 now⟩] else none :=
  assemble_eq_ite (by simp [Asm.operandsOk]) fun ⟨_, hfs⟩ => by rw [Asm.commands, encode_beepTick_word hfs]

theorem assemble_of_not_ok {a : Asm} (h : a.operandsOk = false) : assemble a = none := by
  rw [assemble, h, if_neg Bool.false_ne_true]

theorem assemble_of_ok {a : Asm} (h : a.operandsOk = true) : assemble a = some a.commands := by
  rw [assemble, h, if_pos rfl]

/-- A pseudo-command's lines share its ranges: all of them assemble, or none does (R62). -/
theorem operandsOk_throttle_of_lt {ch : Nat} (h : ch < 4) (t0 t1 t2 t3 thr : ThrLit) (now gnd fs : Nat) :
    (Asm.throttle ch thr now gnd fs).operandsOk = (Asm.cycle t0 t1 t2 t3 now gnd fs).operandsOk := by
  simp [Asm.operandsOk, h]

theorem operandsOk_encode_of_lt {ch : Nat} (h : ch < 4) (code : Nat) :
    (Asm.encode ch code 1).operandsOk = (Asm.beepFrame code).operandsOk := by
  simp [Asm.operandsOk, h]

theorem assemble_cycle (t0 t1 t2 t3 : ThrLit) (now gnd fs : Nat) :
    assemble (.cycle t0 t1 t2 t3 now gnd fs) =
      (do let a ← assemble (.throttle 0 t0 now gnd fs)
          let b ← assemble (.throttle 1 t1 now gnd fs)
          let c ← assemble (.throttle 2 t2 now gnd fs)
          let d ← assemble (.throttle 3 t3 now gnd fs)
          some (a ++ b ++ c ++ d)) := by
  have hline {ch : Nat} (h : ch < 4) (thr : ThrLit) := operandsOk_throttle_of_lt h t0 t1 t2 t3 thr now gnd fs
  cases hok : (Asm.cycle t0 t1 t2 t3 now gnd fs).operandsOk with
  | false =>
    rw [assemble_of_not_ok hok, assemble_of_not_ok ((hline (by norm_num) t0).trans hok)]
    rfl
  | true =>
    rw [assemble_of_ok hok, assemble_of_ok ((hline (by norm_num) t0).trans hok),
      assemble_of_ok ((hline (by norm_num) t1).trans hok), assemble_of_ok ((hline (by norm_num) t2).trans hok),
      assemble_of_ok ((hline (by norm_num) t3).trans hok)]
    rfl

theorem assemble_beepFrame (code : Nat) : assemble (.beepFrame code) =
      (do let a ← assemble (.encode 0 code 1)
          let b ← assemble (.encode 1 code 1)
          let c ← assemble (.encode 2 code 1)
          let d ← assemble (.encode 3 code 1)
          let e ← assemble .transmit
          some (a ++ b ++ c ++ d ++ e)) := by
  have hline {ch : Nat} (h : ch < 4) := operandsOk_encode_of_lt h code
  cases hok : (Asm.beepFrame code).operandsOk with
  | false =>
    rw [assemble_of_not_ok hok, assemble_of_not_ok ((hline (by norm_num)).trans hok)]
    rfl
  | true =>
    rw [assemble_of_ok hok, assemble_of_ok ((hline (ch := 0) (by norm_num)).trans hok),
      assemble_of_ok ((hline (ch := 1) (by norm_num)).trans hok),
      assemble_of_ok ((hline (ch := 2) (by norm_num)).trans hok),
      assemble_of_ok ((hline (ch := 3) (by norm_num)).trans hok)]
    rfl

/-- Settles O58: one lemma per line. -/
theorem pseudoCommandsExpand : Obligations.PseudoCommandsExpand :=
  ⟨assemble_encode, by decide, assemble_map, assemble_throttle, assemble_beepTick, by decide, by decide,
    assemble_cycle, assemble_beepFrame⟩

end Sys2Proof.Machine
end

section
/-! Throttle operands as binary32 patterns (30_encoding.md R54, R61). -/
namespace Sys2Proof.Machine

/-- A pattern from its sign and its low 31 bits. -/
def signedPattern (neg : Bool) (low : Nat) : Word := BitVec.ofNat 32 (low + if neg then 2 ^ 31 else 0)

theorem signedPattern_toNat {low : Nat} (h : low < 2 ^ 31) (neg : Bool) :
    (signedPattern neg low).toNat = low + if neg then 2 ^ 31 else 0 := by
  rw [signedPattern, BitVec.toNat_ofNat]
  split <;> omega

theorem signedPattern_exponent {low : Nat} (h : low < 2 ^ 31) (neg : Bool) :
    ((signedPattern neg low).extractLsb' 23 8).toNat = low / 2 ^ 23 := by
  rw [BitVec.extractLsb'_toNat, Nat.shiftRight_eq_div_pow, signedPattern_toNat h]
  split <;> omega

theorem signedPattern_fraction {low : Nat} (h : low < 2 ^ 31) (neg : Bool) :
    ((signedPattern neg low).extractLsb' 0 23).toNat = low % 2 ^ 23 := by
  rw [BitVec.extractLsb'_toNat, Nat.shiftRight_zero, signedPattern_toNat h]
  split <;> omega

theorem signedPattern_msb {low : Nat} (h : low < 2 ^ 31) (neg : Bool) : (signedPattern neg low).msb = neg := by
  rw [BitVec.msb_eq_decide, signedPattern_toNat h]
  cases neg with
  | false => simpa using h
  | true => simp

/-- A pattern below `2 ^ 23` is its own magnitude (R54). -/
theorem ofWord_signedPattern_subnormal {low : Nat} (h : low < 2 ^ 23) (neg : Bool) :
    F32.ofWord (signedPattern neg low) = ⟨neg, low⟩ := by
  simp only [F32.ofWord, signedPattern_exponent (show low < 2 ^ 31 by omega),
    signedPattern_fraction (show low < 2 ^ 31 by omega), signedPattern_msb (show low < 2 ^ 31 by omega)]
  rw [if_pos (by omega), Nat.mod_eq_of_lt h]

/-- A pattern with exponent field `e + 1` and fraction `m - 2 ^ 23` is the magnitude `m * 2 ^ e` (R54). -/
theorem ofWord_signedPattern_normal {e m : Nat} (he : e < 254) (hlo : 2 ^ 23 ≤ m) (hhi : m < 2 ^ 24) (neg : Bool) :
    F32.ofWord (signedPattern neg ((e + 1) * 2 ^ 23 + (m - 2 ^ 23))) = ⟨neg, m * 2 ^ e⟩ := by
  have hlow : (e + 1) * 2 ^ 23 + (m - 2 ^ 23) < 2 ^ 31 := by omega
  simp only [F32.ofWord, signedPattern_exponent hlow, signedPattern_fraction hlow, signedPattern_msb hlow]
  have hexp : ((e + 1) * 2 ^ 23 + (m - 2 ^ 23)) / 2 ^ 23 = e + 1 := by omega
  have hfrac : 2 ^ 23 + ((e + 1) * 2 ^ 23 + (m - 2 ^ 23)) % 2 ^ 23 = m := by omega
  rw [hexp, hfrac, if_neg (by omega), Nat.add_sub_cancel]

/-- The quantum of a magnitude with all 24 bits, and its 24 bits. -/
theorem F32Magnitude.mantissa {m : Nat} (hm : F32Magnitude m) (hlo : 2 ^ 23 ≤ m) :
    2 ^ 23 ≤ m / 2 ^ (Nat.log2 m - 23) ∧ m / 2 ^ (Nat.log2 m - 23) < 2 ^ 24 ∧
      m / 2 ^ (Nat.log2 m - 23) * 2 ^ (Nat.log2 m - 23) = m := by
  have hlog : 23 ≤ Nat.log2 m := (Nat.le_log2 (by omega)).2 hlo
  have hbelow : 2 ^ 23 * 2 ^ (Nat.log2 m - 23) ≤ m := by
    rw [← pow_add, Nat.add_sub_cancel' hlog]
    exact Nat.log2_self_le (by omega)
  have habove : m < 2 ^ (Nat.log2 m - 23) * 2 ^ 24 := by
    rw [← pow_add, show Nat.log2 m - 23 + 24 = Nat.log2 m + 1 by omega]
    exact Nat.lt_log2_self
  have hpos : 0 < 2 ^ (Nat.log2 m - 23) := by positivity
  refine ⟨(Nat.le_div_iff_mul_le hpos).2 hbelow, Nat.div_lt_of_lt_mul habove, ?_⟩
  obtain ⟨j, hj⟩ | ⟨-, hlt⟩ := hm.multiple_or_lt (Nat.log2 m - 23)
  · exact Nat.div_mul_cancel ⟨j, by rw [mul_comm]; exact hj⟩
  · exact absurd hbelow hlt.not_ge

theorem f32Pattern_of_overflow {mag : Nat} (h : 2 ^ 277 ≤ mag) (neg : Bool) :
    f32Pattern neg mag = if neg then 0xFF800000 else 0x7F800000 := by
  rw [f32Pattern, if_pos h]
  cases neg <;> rfl

theorem f32Pattern_of_subnormal {mag : Nat} (h : mag < 2 ^ 23) (neg : Bool) :
    f32Pattern neg mag = signedPattern neg mag := by
  have hfinite : mag < 2 ^ 277 := h.trans (pow_lt_pow_right₀ Nat.one_lt_two (by norm_num))
  rw [f32Pattern, if_neg hfinite.not_ge, if_pos h]
  rfl

theorem f32Pattern_of_normal {mag : Nat} (hlo : 2 ^ 23 ≤ mag) (hhi : mag < 2 ^ 277) (neg : Bool) :
    f32Pattern neg mag =
      signedPattern neg ((Nat.log2 mag - 23 + 1) * 2 ^ 23 + (mag / 2 ^ (Nat.log2 mag - 23) - 2 ^ 23)) := by
  rw [f32Pattern, if_neg hhi.not_ge, if_neg hlo.not_gt]
  rfl

/-- The pattern of a finite magnitude reads back as the sign and the magnitude, and is no infinity (R54). -/
theorem ofWord_f32Pattern {mag : Nat} (hm : F32Magnitude mag) (h : mag < 2 ^ 277) (neg : Bool) :
    F32.ofWord (f32Pattern neg mag) = ⟨neg, mag⟩ ∧ (f32Pattern neg mag).extractLsb' 23 8 ≠ 0xFF := by
  by_cases hlo : mag < 2 ^ 23
  · rw [f32Pattern_of_subnormal hlo]
    refine ⟨ofWord_signedPattern_subnormal hlo neg, fun heq => ?_⟩
    have hexp := signedPattern_exponent (show mag < 2 ^ 31 by omega) neg
    rw [heq] at hexp
    have : 255 = mag / 2 ^ 23 := hexp
    omega
  · have hlo := Nat.not_lt.1 hlo
    obtain ⟨hmlo, hmhi, hexact⟩ := hm.mantissa hlo
    have hne : mag ≠ 0 := (Nat.lt_of_lt_of_le (Nat.two_pow_pos 23) hlo).ne'
    have hlog : Nat.log2 mag < 277 := (Nat.log2_lt hne).2 h
    have he : Nat.log2 mag - 23 < 254 := by omega
    rw [f32Pattern_of_normal hlo h]
    generalize Nat.log2 mag - 23 = e at *
    refine ⟨(ofWord_signedPattern_normal he hmlo hmhi neg).trans (by rw [hexact]), fun heq => ?_⟩
    have hexp := signedPattern_exponent (low := (e + 1) * 2 ^ 23 + (mag / 2 ^ e - 2 ^ 23)) (by omega) neg
    rw [heq] at hexp
    have : 255 = ((e + 1) * 2 ^ 23 + (mag / 2 ^ e - 2 ^ 23)) / 2 ^ 23 := hexp
    omega

/-- Settles O59: the magnitude is rounded by `roundRatio`, and its pattern reads back, or is an infinity. -/
theorem throttleLiterals : Obligations.ThrottleLiterals := by
  refine ⟨fun p => rfl, fun neg digits places => ?_⟩
  refine ⟨roundRatio (digits * 2 ^ 149) (10 ^ places), nearestEven_roundRatio _ (by positivity), fun hfinite => ?_,
    fun hover => f32Pattern_of_overflow hover neg⟩
  exact ofWord_f32Pattern (f32Magnitude_roundRatio _ _) hfinite neg

end Sys2Proof.Machine
end
